-- ==== Sys2Proof/Word.lean ====
section
/-! DEFINITION. The word types of ADDRCODEC: bus words and bytes (00_scope.md R5, R6). -/

namespace Sys2Proof

/-- A value on the 32-bit host bus, and a command word (R5, R53, R70). -/
abbrev Word := BitVec 32

/-- A byte, 0x00..0xFF (R6); also one character, held as its ASCII code (R9). -/
abbrev Byte := BitVec 8

end Sys2Proof
end

