-- ==== Sys2Proof/Config.lean ====
section
/-! DEFINITION. The implementation parameters of R5: the fixed sizes, and the three OPEN parameters
(`BASE`, `PAD_POLICY_STD`, `PAD_POLICY_URL`) as constants without a body. -/

namespace Sys2Proof

/-- The three padding policies of R127. -/
inductive PadPolicy where
  /-- Any trailing `'='` is refused. -/
  | reject
  /-- Trailing `'='` only where a canonical encoder could have written it. -/
  | acceptCanonical
  /-- As `acceptCanonical`, and padding may not be missing. -/
  | requireCanonical
  deriving DecidableEq, Repr, Inhabited

namespace Config

/-- Size of the register window in bytes (R51). -/
abbrev windowSize : Nat := 0x200

/-- Capacity of the text array, `TXT_CAP` (R5, decision D13). -/
abbrev txtCap : Nat := 256

/-- Size of ACCT in bytes (R27). -/
abbrev acctSize : Nat := 32

/-- Size of BUF in bytes (R28). -/
abbrev bufSize : Nat := 36

/-- How many bytes of BUF the checksum covers, BUF[0..33] (R102). -/
abbrev sumSize : Nat := 34

/-- How many characters an encode writes (R126). -/
abbrev encLength : Nat := 48

/-- Which multiple of 0x200 the window starts at: OPEN, the platform's choice (R51; log entry 4). -/
opaque baseIndex : Nat

/-- `BASE`, the window's host address: any multiple of 0x200 (R51). -/
def base : Nat := windowSize * baseIndex

/-- `PAD_POLICY_STD`, the padding policy of the Standard alphabet: OPEN (R127; log entry 5). -/
opaque padPolicyStd : PadPolicy

/-- `PAD_POLICY_URL`, the padding policy of the UrlSafe alphabet: OPEN (R127; log entry 5). -/
opaque padPolicyUrl : PadPolicy

end Config
end Sys2Proof
end

