-- ==== Sys2Proof/Syntax.lean ====
section
/-! DEFINITION. What is said to the block: its fourteen commands (R74), the host's bus accesses (R53)
and the host-script lines with the pseudo-instructions (R80, R81). -/

namespace Sys2Proof

/-- The commands of `ADDRCODEC-1`, one constructor per row of the opcode map (R74). Every operand is
implicit (R75), so no constructor has a field. -/
inductive Instr where
  /-- CRC.COMPUTE (R103). -/
  | crcCompute
  /-- CRC.VERIFY (R104). -/
  | crcVerify
  /-- B64.ENC.STD (R134). -/
  | b64EncStd
  /-- B64.ENC.URL (R135). -/
  | b64EncUrl
  /-- B64.DEC.STD (R136). -/
  | b64DecStd
  /-- B64.DEC.URL (R137). -/
  | b64DecUrl
  /-- B64.DEC.GUESS (R138). -/
  | b64DecGuess
  /-- BUF.BUILD (R167). -/
  | bufBuild
  /-- BUF.PARSE (R168). -/
  | bufParse
  /-- ADDR.ENC.STD (R181). -/
  | addrEncStd
  /-- ADDR.ENC.URL (R182). -/
  | addrEncUrl
  /-- ADDR.DEC.STD (R184). -/
  | addrDecStd
  /-- ADDR.DEC.URL (R185). -/
  | addrDecUrl
  /-- ADDR.DEC.GUESS (R186). -/
  | addrDecGuess
  deriving DecidableEq, Repr

/-- The two Base64 alphabets (R120, R121). -/
inductive Alphabet where
  | standard
  | urlSafe
  deriving DecidableEq, Repr

/-- The alphabet modes a command can name (R73, R124). -/
inductive AlphMode where
  | standard
  | urlSafe
  | guess
  deriving DecidableEq, Repr

/-- Where a host access goes: a window offset, as `BusRead(off, n)` and `BusWrite(off, n, v)` name it
(R53), or an address on the host bus (R51). -/
inductive Place where
  | offset (off : Nat)
  | address (addr : Nat)
  deriving DecidableEq, Repr

/-- One host access; its size is 1 or 4 bytes, and no other size exists (R53). The names are those
of the host scripts (R80). -/
inductive BusAccess where
  | rd8 (at_ : Place)
  | rd32 (at_ : Place)
  | wr8 (at_ : Place) (v : Byte)
  | wr32 (at_ : Place) (v : Word)
  deriving DecidableEq, Repr

/-- What can happen at the block's pins, one after the other in one total order (R61). -/
inductive HostEvent where
  /-- A host access reaches the bus. -/
  | access (a : BusAccess)
  /-- The platform pulses the reset input between two accesses (R230). -/
  | reset
  /-- Reset is asserted during the access `a`, which then ends with no effect (R231). -/
  | resetDuring (a : BusAccess)
  deriving DecidableEq, Repr

/-- A line of a host script: a bus operation, `cmd` (R80), or a pseudo-instruction (R81). -/
inductive ScriptLine where
  | wr32 (off : Nat) (v : Word)
  | rd32 (off : Nat)
  | wr8 (off : Nat) (v : Byte)
  | rd8 (off : Nat)
  | cmd (i : Instr)
  | addrEncStdDefault
  | addrEncUrlDefault
  | addrDec
  | wrflags (b t : Nat)
  | wrwc (n : Int)
  | wracct (h : List Byte)
  | wrbuf (h : List Byte)
  | wrtxt (s : List Byte)
  | rdtxt
  deriving DecidableEq, Repr

end Sys2Proof
end

