-- ==== Sys2Proof/WellFormed.lean ====
section
/-! DEFINITION. Which terms of the syntax are well formed. A command has no operand, so every command
is (R75); the checks that can fail are those of the host-script lines (R80, R81). -/

namespace Sys2Proof

/-- Well-formedness of a command: it has no immediate, register or offset field to check (R71, R75). -/
def Instr.wf : Instr → Bool
  | .crcCompute | .crcVerify => true
  | .b64EncStd | .b64EncUrl => true
  | .b64DecStd | .b64DecUrl | .b64DecGuess => true
  | .bufBuild | .bufParse => true
  | .addrEncStd | .addrEncUrl => true
  | .addrDecStd | .addrDecUrl | .addrDecGuess => true

/-- Well-formedness of a host-script line: offsets inside the window (R51, R80), a signed workchain
-128..127, hex strings of exactly 32 or 36 bytes, texts of at most 256 characters (R81). -/
def ScriptLine.wf : ScriptLine → Bool
  | .wr32 off _ | .rd32 off | .wr8 off _ | .rd8 off => decide (off < Config.windowSize)
  | .cmd i => i.wf
  | .addrEncStdDefault | .addrEncUrlDefault | .addrDec => true
  | .wrflags _ _ => true
  | .wrwc n => decide (-128 ≤ n) && decide (n ≤ 127)
  | .wracct h => decide (h.length = Config.acctSize)
  | .wrbuf h => decide (h.length = Config.bufSize)
  | .wrtxt s => decide (s.length ≤ Config.txtCap)
  | .rdtxt => true

end Sys2Proof
end

