-- ==== Sys2Proof/Decode.lean ====
section
/-! DEFINITION. The command word (R70..R74, R77): its fields, the decoder, total on every word and
rejecting by name, and the encoder written from the same table. -/

namespace Sys2Proof

/-- Why a word is no command, after the list of R77. Which of several reasons is named is the model's
choice (log entry 14): the block reports them all as one ContractViolation. -/
inductive IllegalWord where
  /-- RSV ≠ 0. -/
  | reservedBits
  /-- ALPH = 11. -/
  | reservedAlph
  /-- ALPH ≠ 00 with a command that uses no alphabet. -/
  | unusedAlph
  /-- ALPH = 10 (guess) with an encode. -/
  | guessEncode
  /-- OP = 0x0 or OP in 0x9..0xF. -/
  | reservedOp
  deriving DecidableEq, Repr

/-- OP, bits [3:0] (R71). -/
def wordOp (w : Word) : BitVec 4 := w.extractLsb' 0 4

/-- ALPH, bits [5:4] (R71). -/
def wordAlph (w : Word) : BitVec 2 := w.extractLsb' 4 2

/-- RSV, bits [31:6] (R71). -/
def wordRsv (w : Word) : BitVec 26 := w.extractLsb' 6 26

/-- A command that uses no alphabet takes ALPH = 00 only (R77). -/
def plainOp (a : BitVec 2) (i : Instr) : Except IllegalWord Instr :=
  if a = 0b00#2 then .ok i else .error .unusedAlph

/-- An encode takes ALPH = 00 (Standard) or 01 (UrlSafe); guess mode exists only for decoding (R73). -/
def encodeOp (a : BitVec 2) (std url : Instr) : Except IllegalWord Instr :=
  if a = 0b00#2 then .ok std
  else if a = 0b01#2 then .ok url
  else .error .guessEncode

/-- A decode takes ALPH = 00, 01 or 10 (guess) (R73). -/
def decodeOp (a : BitVec 2) (std url guess : Instr) : Except IllegalWord Instr :=
  if a = 0b00#2 then .ok std
  else if a = 0b01#2 then .ok url
  else if a = 0b10#2 then .ok guess
  else .error .reservedAlph

/-- The command a word encodes (R72, R73, R74), or why it encodes none (R77). A decoder needs only the
word (R70). -/
def decode (w : Word) : Except IllegalWord Instr :=
  if wordRsv w ≠ 0#26 then .error .reservedBits
  else if wordAlph w = 0b11#2 then .error .reservedAlph
  else match (wordOp w).toNat with
    | 0x1 => plainOp (wordAlph w) .crcCompute
    | 0x2 => plainOp (wordAlph w) .crcVerify
    | 0x3 => encodeOp (wordAlph w) .b64EncStd .b64EncUrl
    | 0x4 => decodeOp (wordAlph w) .b64DecStd .b64DecUrl .b64DecGuess
    | 0x5 => plainOp (wordAlph w) .bufBuild
    | 0x6 => plainOp (wordAlph w) .bufParse
    | 0x7 => encodeOp (wordAlph w) .addrEncStd .addrEncUrl
    | 0x8 => decodeOp (wordAlph w) .addrDecStd .addrDecUrl .addrDecGuess
    | _ => .error .reservedOp

/-- A word from its fields, RSV = 0 (R71). -/
def wordOfFields (op : BitVec 4) (alph : BitVec 2) : Word := 0#26 ++ alph ++ op

/-- The word of a command, from the OP and ALPH columns of R74. -/
def encode : Instr → Word
  | .crcCompute => wordOfFields 0x1#4 0b00#2
  | .crcVerify => wordOfFields 0x2#4 0b00#2
  | .b64EncStd => wordOfFields 0x3#4 0b00#2
  | .b64EncUrl => wordOfFields 0x3#4 0b01#2
  | .b64DecStd => wordOfFields 0x4#4 0b00#2
  | .b64DecUrl => wordOfFields 0x4#4 0b01#2
  | .b64DecGuess => wordOfFields 0x4#4 0b10#2
  | .bufBuild => wordOfFields 0x5#4 0b00#2
  | .bufParse => wordOfFields 0x6#4 0b00#2
  | .addrEncStd => wordOfFields 0x7#4 0b00#2
  | .addrEncUrl => wordOfFields 0x7#4 0b01#2
  | .addrDecStd => wordOfFields 0x8#4 0b00#2
  | .addrDecUrl => wordOfFields 0x8#4 0b01#2
  | .addrDecGuess => wordOfFields 0x8#4 0b10#2

/-- The bus word whose lowest `nbits` bits are those of `w`, every bit above them 0. A command is one
32-bit word (R70), written to CMD as one bus value. -/
def wordOfBits (nbits w : Nat) : Word := BitVec.ofNat 32 (w % 2 ^ nbits)

/-- What the decoder reads from the instruction whose bits are `w`, numbered from bit 0 of the word
(log entry 16). -/
def decodeTableWord (nbits w : Nat) : Option Instr := (decode (wordOfBits nbits w)).toOption

end Sys2Proof
end

