-- ==== Sys2Proof/Machine/State.lean ====
section
/-! DEFINITION. The machine's state (10_state.md R22, R35, R36), the reasons a step can stop, and the
state after reset. -/

namespace Sys2Proof.Machine

/-- The bytes of the three arrays that have been written, at their window offsets (R52): (offset, byte)
pairs, offsets strictly rising (`Memory.wf`). A byte's written mark (R35) is that its offset is listed;
an offset that is not listed has no value. -/
abbrev Memory := List Host.Cell

/-- What the block answered to an access that reached it and was answered okay (R53). -/
inductive Answer where
  /-- A write was taken. -/
  | written
  /-- A 1-byte read gave this value. -/
  | byte (v : Byte)
  /-- A 4-byte read gave this value. -/
  | word (v : Word)
  deriving DecidableEq, Repr

/-- The whole machine. A register holds its defined fields only: its reserved bits have no storage and
read as 0 (R54; log entry 9). CMD has no storage at all (R23). -/
structure State where
  /-- STATUS[7:0]: DONE, AU, MATCH, ERR (R24). -/
  status : BitVec 8
  /-- FLAGS[1:0]: TST, BNC (R25). -/
  flags : BitVec 2
  /-- WC[7:0], two's complement (R26). -/
  wc : BitVec 8
  /-- CRC[15:0] (R29). -/
  crc : BitVec 16
  /-- TXT_LEN[8:0], the field LEN (R30). -/
  txtLen : BitVec 9
  /-- ACCT, BUF and TXT (R27, R28, R31). -/
  mem : Memory
  /-- The record of a ContractViolation, which no command clears (R202, R230; log entry 8). -/
  violated : Bool
  /-- The MODEL's own: the events still to reach the block, next first (R61; log entry 1). -/
  port : List HostEvent
  /-- The MODEL's own: the block's answers so far, newest first (R53; log entry 2). -/
  answers : List Answer
  deriving DecidableEq, Repr

/-- Why a step stops the machine: the two model-only outcomes of R10. -/
inductive Fault where
  /-- A command or a host read reads an array byte whose written mark is clear (R35). Raised by the
  command meanings and by `busRead8`, `busRead32`. SAFE: hardware goes on with an unspecified value. -/
  | unwrittenByte
  /-- The block answers a host access with a bus error (R57). Raised by `busRead8`, `busRead32`,
  `busWrite8`, `busWrite32`. SAFE: hardware goes on, the access having no effect. -/
  | busError
  deriving DecidableEq, Repr

/-- Why a step has no meaning. -/
inductive Refusal where
  /-- The command `mnemonic` has no meaning yet. Raised only by a rejecting arm of `exec`; none is
  left, so nothing raises it. SAFE. -/
  | notModelled (mnemonic : String)
  deriving DecidableEq, Repr

/-- The machine right after reset (R36, R230): the registers as R36 gives them, every array byte
unwritten, no ContractViolation on record. The model's own lists are empty (log entries 1, 2). -/
def State.reset : State where
  status := 0x00#8
  flags := 0b01#2
  wc := 0x00#8
  crc := 0x0000#16
  txtLen := 0#9
  mem := []
  violated := false
  port := []
  answers := []

end Sys2Proof.Machine
end

