-- ==== Sys2Proof/Machine/Flags.lean ====
section
/-! DEFINITION. The status flags (R32): the STATUS value a command writes (R205), its fields (R24),
and the error codes (R201). -/

namespace Sys2Proof.Machine

/-- The errors a command of the block can raise (R201). The raw-form kinds, codes 0x5, 0x6 and 0x7,
are reserved and never written, so no constructor stands for them. -/
inductive Err where
  | invalidBase64
  | invalidLength
  | invalidFlag
  | checksumMismatch
  | contractViolation
  deriving DecidableEq, Repr

/-- The code of an error in STATUS.ERR (R201). -/
def errCode : Err → BitVec 4
  | .invalidBase64 => 0x1#4
  | .invalidLength => 0x2#4
  | .invalidFlag => 0x3#4
  | .checksumMismatch => 0x4#4
  | .contractViolation => 0xF#4

/-- ERR of a command that succeeds (R201). -/
def errOk : BitVec 4 := 0x0#4

/-- The AU code: 00 none, 01 Standard, 10 UrlSafe (R24, R180). -/
def auCode : Option Alphabet → BitVec 2
  | none => 0b00#2
  | some .standard => 0b01#2
  | some .urlSafe => 0b10#2

/-- `status(ERR, MATCH, AU)` with DONE = 1 (R205). -/
def statusValue (err : BitVec 4) (mtch : Bool) (au : Option Alphabet) : BitVec 8 :=
  1#1 ++ auCode au ++ BitVec.ofBool mtch ++ err

/-- STATUS.ERR, bits [3:0] (R24). -/
def statusErr (v : BitVec 8) : BitVec 4 := v.extractLsb' 0 4

/-- STATUS.MATCH, bit [4] (R24). -/
def statusMatch (v : BitVec 8) : Bool := v.getLsbD 4

/-- STATUS.AU, bits [6:5] (R24). -/
def statusAu (v : BitVec 8) : BitVec 2 := v.extractLsb' 5 2

/-- STATUS.DONE, bit [7] (R24). -/
def statusDone (v : BitVec 8) : Bool := v.getLsbD 7

end Sys2Proof.Machine
end

