-- ==== Sys2Proof/Machine/Ops.lean ====
section
/-! DEFINITION. The named operations: over the array bytes (R35, R52), over single registers, the end
of a command (R33, R205) and the raising of an error (R8, R200, R206). -/

namespace Sys2Proof.Machine

/-! ## Array bytes -/

/-- Window offset of ACCT[0] (R52). -/
abbrev acctBase : Nat := 0x020

/-- Window offset of BUF[0] (R52). -/
abbrev bufBase : Nat := 0x040

/-- Window offset of TXT[0] (R52). -/
abbrev txtBase : Nat := 0x100

/-- One byte; `none` when its written mark is clear (R35). -/
def Memory.read : Memory → Nat → Option Byte
  | [], _ => none
  | (k, v) :: m, a => if k = a then some v else Memory.read m a

/-- Store one byte, which sets its written mark (R35). The offsets stay strictly rising. -/
def Memory.write : Memory → Nat → Byte → Memory
  | [], a, b => [(a, b)]
  | (k, v) :: m, a, b =>
    if a < k then (a, b) :: (k, v) :: m
    else if a = k then (a, b) :: m
    else (k, v) :: Memory.write m a b

/-- The `n` bytes from offset `a` on, in order; `none` if any of them is unwritten. -/
def Memory.readBytes (m : Memory) : Nat → Nat → Option (List Byte)
  | _, 0 => some []
  | a, n + 1 =>
    match Memory.read m a with
    | none => none
    | some b =>
      match Memory.readBytes m (a + 1) n with
      | none => none
      | some bs => some (b :: bs)

/-- Store a sequence of bytes from offset `a` on. -/
def Memory.writeBytes (m : Memory) : Nat → List Byte → Memory
  | _, [] => m
  | a, b :: bs => Memory.writeBytes (Memory.write m a b) (a + 1) bs

/-- The canonical form: offsets strictly rising. An unlisted offset has no value, so no listed entry
equals what an unlisted one reads as. -/
def Memory.wf : Memory → Bool
  | [] => true
  | [_] => true
  | (a, _) :: (k, v) :: m => decide (a < k) && Memory.wf ((k, v) :: m)

/-! ## Registers -/

/-- Store STATUS. -/
def State.setStatus (s : State) (v : BitVec 8) : State := { s with status := v }

/-- Store FLAGS. -/
def State.setFlags (s : State) (v : BitVec 2) : State := { s with flags := v }

/-- Store WC. -/
def State.setWc (s : State) (v : BitVec 8) : State := { s with wc := v }

/-- Store CRC. -/
def State.setCrc (s : State) (v : BitVec 16) : State := { s with crc := v }

/-- Store TXT_LEN. -/
def State.setTxtLen (s : State) (v : BitVec 9) : State := { s with txtLen := v }

/-- Replace the array bytes. -/
def State.setMem (s : State) (m : Memory) : State := { s with mem := m }

/-- Put a ContractViolation on record (R202). -/
def State.recordViolation (s : State) (b : Bool) : State := { s with violated := s.violated || b }

/-- Leave these events still to reach the block. -/
def State.setPort (s : State) (p : List HostEvent) : State := { s with port := p }

/-- Answer the access in progress. -/
def State.addAnswer (s : State) (a : Answer) : State := { s with answers := a :: s.answers }

/-- The block after its reset input was pulsed (R230): every register and every written mark as R36
gives them, no ContractViolation on record. What the host still sends and what it was answered are not
the block's and stay (log entry 11). -/
def State.pulseReset (s : State) : State :=
  { State.reset with port := s.port, answers := s.answers }

/-! ## The end of a command -/

/-- A command raises `e` with the alphabet selected so far: nothing staged is committed, STATUS is
written, and a ContractViolation goes on record (R8, R33, R200, R202, R206). No control transfer
happens and nothing is saved; there is no return from an error (R207). -/
def raiseError (s : State) (e : Err) (au : Option Alphabet) : State :=
  (s.setStatus (statusValue (errCode e) false au)).recordViolation (e = .contractViolation)

/-- A command ends without error: `staged`, the state with every staged write, is committed together
with STATUS (R33, R205). -/
def finish (staged : State) (mtch : Bool) (au : Option Alphabet) : State :=
  staged.setStatus (statusValue errOk mtch au)

/-- What a computation of a command came to: a staged state, or an error; with the alphabet in use. -/
inductive Ending where
  | done (staged : State) (mtch : Bool) (au : Option Alphabet)
  | raised (e : Err) (au : Option Alphabet)
  deriving DecidableEq, Repr

/-- All or nothing (R33): the state after a command that ran from `s`. -/
def commit (s : State) : Ending → State
  | .done staged mtch au => finish staged mtch au
  | .raised e au => raiseError s e au

/-- Run a command on the array bytes it reads: a read set with an unwritten byte is the model's fault,
before anything else is looked at (R35, R75, R204). -/
def withBytes (s : State) (bytes : Option (List Byte)) (body : List Byte → Ending) :
    Host.Outcome State Fault Refusal :=
  match bytes with
  | none => .fault .unwrittenByte
  | some bs => .next (commit s (body bs))

end Sys2Proof.Machine
end

