-- ==== Sys2Proof/Machine/Operands.lean ====
section
/-! DEFINITION. The implicit operands of the commands (R75): reading FLAGS, ACCT, BUF and the text, and
staging writes to them. -/

namespace Sys2Proof.Machine

/-- FLAGS.BNC, bit 0 (R25). -/
def State.bnc (s : State) : Bool := s.flags.getLsbD 0

/-- FLAGS.TST, bit 1 (R25). -/
def State.tst (s : State) : Bool := s.flags.getLsbD 1

/-- The FLAGS value with these two flags (R25). -/
def flagsOf (bnc tst : Bool) : BitVec 2 := BitVec.ofBool tst ++ BitVec.ofBool bnc

/-- ACCT[0..31] (R27). -/
def State.acctBytes (s : State) : Option (List Byte) := s.mem.readBytes acctBase Config.acctSize

/-- BUF[0..35] (R28). -/
def State.bufBytes (s : State) : Option (List Byte) := s.mem.readBytes bufBase Config.bufSize

/-- BUF[0..33], the checksummed region (R102). -/
def State.sumBytes (s : State) : Option (List Byte) := s.mem.readBytes bufBase Config.sumSize

/-- The text TXT[0..LEN-1] (R31). -/
def State.textBytes (s : State) : Option (List Byte) := s.mem.readBytes txtBase s.txtLen.toNat

/-- Stage a write of the whole of ACCT. -/
def State.stageAcct (s : State) (a : List Byte) : State := s.setMem (s.mem.writeBytes acctBase a)

/-- Stage a write of the whole of BUF. -/
def State.stageBuf (s : State) (b : List Byte) : State := s.setMem (s.mem.writeBytes bufBase b)

/-- Stage a write of an encoded text: TXT[0..47] and TXT_LEN.LEN = 48; TXT[48..255] stays (R126). -/
def State.stageText (s : State) (t : List Byte) : State :=
  (s.setMem (s.mem.writeBytes txtBase t)).setTxtLen (BitVec.ofNat 9 Config.encLength)

/-- `check_txt_len()` fails: TXT_LEN.LEN > 256 (R202). -/
def State.textTooLong (s : State) : Bool := decide (Config.txtCap < s.txtLen.toNat)

/-- The frame of every command that reads the text: `check_txt_len()` comes first and reads no array
byte (R202 (b), R204), then the whole text is read. -/
def withText (s : State) (body : List Byte → Ending) : Host.Outcome State Fault Refusal :=
  if s.textTooLong then .next (commit s (.raised .contractViolation none))
  else withBytes s s.textBytes body

end Sys2Proof.Machine
end

