-- ==== Sys2Proof/Machine/Base64.lean ====
section
/-! DEFINITION. The Base64 Codec (41_base64.md): the two alphabets, alphabet selection, encoding,
decoding with the padding policies, and the five B64 commands. -/

namespace Sys2Proof.Machine

/-! ## Alphabets -/

/-- The character of value 62 (R120, R121). -/
def char62 : Alphabet → Byte
  | .standard => 0x2B#8  -- '+'
  | .urlSafe => 0x2D#8   -- '-'

/-- The character of value 63 (R120, R121). -/
def char63 : Alphabet → Byte
  | .standard => 0x2F#8  -- '/'
  | .urlSafe => 0x5F#8   -- '_'

/-- `alpha(A)[v]` (R120, R121): 'A'..'Z', 'a'..'z', '0'..'9', then the two that differ. -/
def alpha (A : Alphabet) (v : BitVec 6) : Byte :=
  if v.toNat < 26 then BitVec.ofNat 8 (0x41 + v.toNat)
  else if v.toNat < 52 then BitVec.ofNat 8 (0x61 + (v.toNat - 26))
  else if v.toNat < 62 then BitVec.ofNat 8 (0x30 + (v.toNat - 52))
  else if v.toNat = 62 then char62 A
  else char63 A

/-- `val(A, c)`, the inverse of `alpha(A)`; `none` outside its 64 characters (R122). -/
def charVal (A : Alphabet) (c : Byte) : Option (BitVec 6) :=
  if 0x41 ≤ c.toNat ∧ c.toNat ≤ 0x5A then some (BitVec.ofNat 6 (c.toNat - 0x41))
  else if 0x61 ≤ c.toNat ∧ c.toNat ≤ 0x7A then some (BitVec.ofNat 6 (c.toNat - 0x61 + 26))
  else if 0x30 ≤ c.toNat ∧ c.toNat ≤ 0x39 then some (BitVec.ofNat 6 (c.toNat - 0x30 + 52))
  else if c = char62 A then some 62#6
  else if c = char63 A then some 63#6
  else none

/-! ## Alphabet selection -/

/-- A character of the set exclusive to an alphabet: `+ /` or `- _` (R123). -/
def exclusiveTo (A : Alphabet) (c : Byte) : Bool := c == char62 A || c == char63 A

/-- `select_alphabet(mode, t)` (R125). The both-sets case is checked before either selection; every
other byte is neutral (R123). -/
def selectAlphabet : AlphMode → List Byte → Except Err Alphabet
  | .standard, _ => .ok .standard
  | .urlSafe, _ => .ok .urlSafe
  | .guess, t =>
    if t.any (exclusiveTo .urlSafe) && t.any (exclusiveTo .standard) then .error .invalidBase64
    else if t.any (exclusiveTo .urlSafe) then .ok .urlSafe
    else .ok .standard

/-! ## Encoding -/

/-- `b64enc(A, b)` (R126): each three bytes, most significant bit first, give four characters. No
padding. The spec gives it for 36 bytes; a rest of fewer than three bytes gives nothing (log entry 15). -/
def b64enc (A : Alphabet) : List Byte → List Byte
  | x :: y :: z :: rest =>
    let v : BitVec 24 := x ++ y ++ z
    alpha A (v.extractLsb' 18 6) :: alpha A (v.extractLsb' 12 6) ::
      alpha A (v.extractLsb' 6 6) :: alpha A (v.extractLsb' 0 6) :: b64enc A rest
  | _ => []

/-! ## Decoding -/

/-- The code of `'='` (R9). -/
def padChar : Byte := 0x3D#8

/-- `p`: the length of the maximal run of `'='` at the end of the text (R127). -/
def padRun (t : List Byte) : Nat := (t.reverse.takeWhile (· == padChar)).length

/-- Step 1 of `b64dec` refuses `p` trailing `'='` in a text of `n` characters (R127, R128). -/
def padRefused (P : PadPolicy) (n p : Nat) : Bool :=
  if 0 < p then decide (2 < p) || decide (n % 4 ≠ 0) || decide (P = .reject)
  else decide (n % 4 ≠ 0) && decide (P = .requireCanonical)

/-- Step 2 of `b64dec`: the value of every character, `none` if one is outside the alphabet (R128). -/
def charVals (A : Alphabet) : List Byte → Option (List (BitVec 6))
  | [] => some []
  | c :: t =>
    match charVal A c with
    | none => none
    | some v =>
      match charVals A t with
      | none => none
      | some vs => some (v :: vs)

/-- Step 4 of `b64dec`, the bit assembly: from the `k` leftover bits `acc` on, the bytes appended and
the leftover at the end (R128). -/
def assembleBits : List (BitVec 6) → (acc k : Nat) → List Byte × Nat
  | [], acc, _ => ([], acc)
  | v :: vs, acc, k =>
    let acc' := (acc <<< 6) ||| v.toNat
    if 8 ≤ k + 6 then
      let rest := assembleBits vs (acc' % 2 ^ (k + 6 - 8)) (k + 6 - 8)
      (BitVec.ofNat 8 (acc' >>> (k + 6 - 8)) :: rest.1, rest.2)
    else assembleBits vs acc' (k + 6)

/-- Steps 3 to 5 of `b64dec` on the values of the body: group structure, bit assembly, leftover bits,
and only then the length (R128, R130). -/
def decodeVals (vs : List (BitVec 6)) : Except Err (List Byte) :=
  if vs.length % 4 = 1 then .error .invalidBase64
  else if (assembleBits vs 0 0).2 ≠ 0 then .error .invalidBase64
  else if (assembleBits vs 0 0).1.length ≠ Config.bufSize then .error .invalidLength
  else .ok (assembleBits vs 0 0).1

/-- `b64dec` under a given padding policy (R128). -/
def b64decWith (P : PadPolicy) (A : Alphabet) (t : List Byte) : Except Err (List Byte) :=
  if padRefused P t.length (padRun t) then .error .invalidBase64
  else
    match charVals A (t.take (t.length - padRun t)) with
    | none => .error .invalidBase64
    | some vs => decodeVals vs

/-- `PAD_POLICY(A)` (R127). -/
def padPolicy : Alphabet → PadPolicy
  | .standard => Config.padPolicyStd
  | .urlSafe => Config.padPolicyUrl

/-- `b64dec(A, t)` (R128). -/
def b64dec (A : Alphabet) (t : List Byte) : Except Err (List Byte) := b64decWith (padPolicy A) A t

/-! ## Commands -/

/-- The body of B64.ENC.* (R134, R135). -/
def b64EncCommand (A : Alphabet) (s : State) : Host.Outcome State Fault Refusal :=
  withBytes s s.bufBytes fun b => .done (s.stageText (b64enc A b)) false (some A)

/-- The two decoding stages on a text: select the alphabet, then decode; what raises carries the
alphabet selected so far (R32, R136..R138, R183). -/
def decodeText (mode : AlphMode) (t : List Byte) :
    Except (Err × Option Alphabet) (Alphabet × List Byte) :=
  match selectAlphabet mode t with
  | .error e => .error (e, none)
  | .ok A =>
    match b64dec A t with
    | .error e => .error (e, some A)
    | .ok b => .ok (A, b)

/-- The body of B64.DEC.* (R136, R137, R138). -/
def b64DecCommand (mode : AlphMode) (s : State) : Host.Outcome State Fault Refusal :=
  withText s fun t =>
    match decodeText mode t with
    | .error (e, au) => .raised e au
    | .ok (A, b) => .done (s.stageBuf b) false (some A)

/-- B64.ENC.STD (R134). -/
def execB64EncStd (s : State) : Host.Outcome State Fault Refusal := b64EncCommand .standard s

/-- B64.ENC.URL (R135). -/
def execB64EncUrl (s : State) : Host.Outcome State Fault Refusal := b64EncCommand .urlSafe s

/-- B64.DEC.STD (R136). -/
def execB64DecStd (s : State) : Host.Outcome State Fault Refusal := b64DecCommand .standard s

/-- B64.DEC.URL (R137). -/
def execB64DecUrl (s : State) : Host.Outcome State Fault Refusal := b64DecCommand .urlSafe s

/-- B64.DEC.GUESS (R138). -/
def execB64DecGuess (s : State) : Host.Outcome State Fault Refusal := b64DecCommand .guess s

end Sys2Proof.Machine
end

