-- ==== Sys2Proof/Machine/Checksum.lean ====
section
/-! DEFINITION. The Checksum Engine (40_checksum.md): CRC-16/XMODEM, CRC.COMPUTE and CRC.VERIFY. -/

namespace Sys2Proof.Machine

/-- One of the eight shifts of R100: left, and XOR with the polynomial 0x1021 when bit 15 was set. -/
def crcShift (c : BitVec 16) : BitVec 16 :=
  if c.getLsbD 15 then (c <<< 1) ^^^ 0x1021#16 else c <<< 1

/-- Eight shifts (R100). -/
def crcShift8 (c : BitVec 16) : BitVec 16 :=
  crcShift (crcShift (crcShift (crcShift (crcShift (crcShift (crcShift (crcShift c)))))))

/-- One byte enters the register at the top (R100). -/
def crcByte (c : BitVec 16) (b : Byte) : BitVec 16 :=
  crcShift8 (c ^^^ (b.setWidth 16 <<< 8))

/-- `crc16(s)`: initial value 0, bytes in order, no final XOR (R100). -/
def crc16 (s : List Byte) : BitVec 16 := s.foldl crcByte 0x0000#16

/-- CRC.COMPUTE (R103): CRC.CRC <- crc16(BUF[0..33]). -/
def execCrcCompute (s : State) : Host.Outcome State Fault Refusal :=
  withBytes s s.sumBytes fun b => .done (s.setCrc (crc16 b)) false none

/-- CRC.VERIFY (R104): STATUS.MATCH <- (crc16(BUF[0..33]) = CRC.CRC). A mismatch is no error. -/
def execCrcVerify (s : State) : Host.Outcome State Fault Refusal :=
  withBytes s s.sumBytes fun b => .done s (crc16 b = s.crc) none

end Sys2Proof.Machine
end

