-- ==== Sys2Proof/Machine/Buffer.lean ====
section
/-! DEFINITION. The Address Buffer Builder (42_buffer.md): the 36-byte layout, BUF.BUILD, BUF.PARSE. -/

namespace Sys2Proof.Machine

/-- `flag_byte(bnc, tst)`, the table of R161. -/
def flagByte : (bnc tst : Bool) → Byte
  | true, false => 0x11#8
  | false, false => 0x51#8
  | true, true => 0x91#8
  | false, true => 0xD1#8

/-- `flag_decode(f)`: by whole byte; any other value is invalid (R162). -/
def flagDecode (f : Byte) : Except Err (Bool × Bool) :=
  if f = 0x11#8 then .ok (true, false)
  else if f = 0x51#8 then .ok (false, false)
  else if f = 0x91#8 then .ok (true, true)
  else if f = 0xD1#8 then .ok (false, true)
  else .error .invalidFlag

/-- A checksum as it stands at offsets 34 and 35, big-endian (R60, R164). -/
def sumToBytes (c : BitVec 16) : List Byte := [c.extractLsb' 8 8, c.extractLsb' 0 8]

/-- The stored checksum `{b[34], b[35]}` (R164). -/
def storedSum (b : List Byte) : BitVec 16 := b.getD 34 0#8 ++ b.getD 35 0#8

/-- `build36(bnc, tst, wc, acct)` (R160, R165). -/
def build36 (bnc tst : Bool) (wc : Byte) (acct : List Byte) : List Byte :=
  let body := flagByte bnc tst :: wc :: acct
  body ++ sumToBytes (crc16 body)

/-- What `parse36` returns: workchain, account id and the two flags (R166). -/
structure Parsed where
  wc : Byte
  acct : List Byte
  bnc : Bool
  tst : Bool
  deriving DecidableEq, Repr

/-- `parse36(b)`: the flag is checked first, then the checksum (R166). The spec gives it for 36 bytes;
the model's default bytes stand only beyond a shorter list's end (log entry 15). -/
def parse36 (b : List Byte) : Except Err Parsed :=
  match flagDecode (b.getD 0 0#8) with
  | .error e => .error e
  | .ok (bnc, tst) =>
    if crc16 (b.take Config.sumSize) ≠ storedSum b then .error .checksumMismatch
    else .ok { wc := b.getD 1 0#8, acct := (b.drop 2).take Config.acctSize, bnc := bnc, tst := tst }

/-- Stage a parsed address: WC, ACCT and FLAGS (R168, R183). -/
def State.stageParsed (s : State) (p : Parsed) : State :=
  ((s.setWc p.wc).stageAcct p.acct).setFlags (flagsOf p.bnc p.tst)

/-- BUF.BUILD (R167): BUF <- build36(FLAGS.BNC, FLAGS.TST, WC, ACCT). CRC is not written. -/
def execBufBuild (s : State) : Host.Outcome State Fault Refusal :=
  withBytes s s.acctBytes fun a => .done (s.stageBuf (build36 s.bnc s.tst s.wc a)) false none

/-- BUF.PARSE (R168): WC, ACCT, FLAGS <- parse36(BUF), or InvalidFlag or ChecksumMismatch. -/
def execBufParse (s : State) : Host.Outcome State Fault Refusal :=
  withBytes s s.bufBytes fun b =>
    match parse36 b with
    | .error e => .raised e none
    | .ok p => .done (s.stageParsed p) false none

end Sys2Proof.Machine
end

