-- ==== Sys2Proof/Machine/Address.lean ====
section
/-! DEFINITION. The friendly-address pipelines (43_address_pipeline.md): the five ADDR commands. -/

namespace Sys2Proof.Machine

/-- `addr_enc(A)` (R180): build, then encode; the buffer stays in BUF. -/
def addrEncCommand (A : Alphabet) (s : State) : Host.Outcome State Fault Refusal :=
  withBytes s s.acctBytes fun a =>
    let b := build36 s.bnc s.tst s.wc a
    .done ((s.stageBuf b).stageText (b64enc A b)) false (some A)

/-- `addr_dec(mode)` (R183): select, decode, parse; the first error ends it with nothing written but
STATUS (R204). -/
def addrDecCommand (mode : AlphMode) (s : State) : Host.Outcome State Fault Refusal :=
  withText s fun t =>
    match decodeText mode t with
    | .error (e, au) => .raised e au
    | .ok (A, b) =>
      match parse36 b with
      | .error e => .raised e (some A)
      | .ok p => .done ((s.stageBuf b).stageParsed p) false (some A)

/-- ADDR.ENC.STD (R181). -/
def execAddrEncStd (s : State) : Host.Outcome State Fault Refusal := addrEncCommand .standard s

/-- ADDR.ENC.URL (R182). -/
def execAddrEncUrl (s : State) : Host.Outcome State Fault Refusal := addrEncCommand .urlSafe s

/-- ADDR.DEC.STD (R184). -/
def execAddrDecStd (s : State) : Host.Outcome State Fault Refusal := addrDecCommand .standard s

/-- ADDR.DEC.URL (R185). -/
def execAddrDecUrl (s : State) : Host.Outcome State Fault Refusal := addrDecCommand .urlSafe s

/-- ADDR.DEC.GUESS (R186). -/
def execAddrDecGuess (s : State) : Host.Outcome State Fault Refusal := addrDecCommand .guess s

end Sys2Proof.Machine
end

