-- ==== Sys2Proof/Machine/Dispatch.lean ====
section
/-! DEFINITION. The one match over the commands: one arm per constructor, each one call. -/

namespace Sys2Proof.Machine

def exec (i : Instr) (s : State) : Host.Outcome State Fault Refusal :=
  match i with
  | .crcCompute => Sys2Proof.Machine.execCrcCompute s
  | .crcVerify => Sys2Proof.Machine.execCrcVerify s
  | .b64EncStd => Sys2Proof.Machine.execB64EncStd s
  | .b64EncUrl => Sys2Proof.Machine.execB64EncUrl s
  | .b64DecStd => Sys2Proof.Machine.execB64DecStd s
  | .b64DecUrl => Sys2Proof.Machine.execB64DecUrl s
  | .b64DecGuess => Sys2Proof.Machine.execB64DecGuess s
  | .bufBuild => Sys2Proof.Machine.execBufBuild s
  | .bufParse => Sys2Proof.Machine.execBufParse s
  | .addrEncStd => Sys2Proof.Machine.execAddrEncStd s
  | .addrEncUrl => Sys2Proof.Machine.execAddrEncUrl s
  | .addrDecStd => Sys2Proof.Machine.execAddrDecStd s
  | .addrDecUrl => Sys2Proof.Machine.execAddrDecUrl s
  | .addrDecGuess => Sys2Proof.Machine.execAddrDecGuess s

end Sys2Proof.Machine
end

