-- ==== Sys2Proof/Machine/Bus.lean ====
section
/-! DEFINITION. The host interface (20_memory.md): the address map, bus reads and writes, the write to
CMD that runs a command, reset, and the arrival of one event at the block. -/

namespace Sys2Proof.Machine

/-! ## The address map -/

/-- What stands at a window offset (R52). -/
inductive Region where
  | cmd | status | flags | wc | crc | txtLen
  | acct | buf | txt
  | reserved
  deriving DecidableEq, Repr

/-- The map of R52, complete: every offset not listed is reserved. -/
def region (off : Nat) : Region :=
  if off < 0x004 then .cmd
  else if off < 0x008 then .status
  else if off < 0x00C then .flags
  else if off < 0x010 then .wc
  else if off < 0x014 then .crc
  else if off < 0x018 then .txtLen
  else if off < 0x020 then .reserved
  else if off < 0x040 then .acct
  else if off < 0x064 then .buf
  else if off < 0x100 then .reserved
  else if off < 0x200 then .txt
  else .reserved

/-- The three array regions (R52, R55). -/
def isArrayRegion : Region → Bool
  | .acct | .buf | .txt => true
  | .cmd | .status | .flags | .wc | .crc | .txtLen | .reserved => false

/-- A 4-byte access is aligned, and an array word lies in one array (R54, R55). -/
def wordPlaced (off : Nat) : Bool :=
  decide (off % 4 = 0) && (!isArrayRegion (region off) || decide (region (off + 3) = region off))

/-- The window offset an access goes to; `none` when it does not reach the block (R51). -/
def placeOffset : Place → Option Nat
  | .offset off => if off < Config.windowSize then some off else none
  | .address addr =>
    if Config.base ≤ addr ∧ addr < Config.base + Config.windowSize then some (addr - Config.base)
    else none

/-! ## Byte lanes -/

/-- The four lanes of a bus value, lane 0 first: lane `k` is bits [8k+7:8k] (R56). -/
def splitLanes (v : Word) : List Byte :=
  [v.extractLsb' 0 8, v.extractLsb' 8 8, v.extractLsb' 16 8, v.extractLsb' 24 8]

/-- The bus value whose lanes are the given bytes, lane 0 first (R56). -/
def joinLanes (bs : List Byte) : Word :=
  bs.getD 3 0#8 ++ bs.getD 2 0#8 ++ bs.getD 1 0#8 ++ bs.getD 0 0#8

/-! ## Reads and writes -/

/-- A read that answers: nothing else changes (R58). -/
def answerWith (s : State) (a : Answer) : Host.Outcome State Fault Refusal := .next (s.addAnswer a)

/-- `BusRead(off, 1)`: an array byte (R55); anything else is a bus error (R57). -/
def busRead8 (off : Nat) (s : State) : Host.Outcome State Fault Refusal :=
  if isArrayRegion (region off) then
    match s.mem.read off with
    | none => .fault .unwrittenByte
    | some b => answerWith s (.byte b)
  else .fault .busError

/-- `BusRead(off, 4)`: a control register, its reserved bits 0 (R54), or an array word (R55, R56); CMD
reads 0 (R23); anything else is a bus error (R57). -/
def busRead32 (off : Nat) (s : State) : Host.Outcome State Fault Refusal :=
  if wordPlaced off then
    match region off with
    | .cmd => answerWith s (.word 0#32)
    | .status => answerWith s (.word (s.status.setWidth 32))
    | .flags => answerWith s (.word (s.flags.setWidth 32))
    | .wc => answerWith s (.word (s.wc.setWidth 32))
    | .crc => answerWith s (.word (s.crc.setWidth 32))
    | .txtLen => answerWith s (.word (s.txtLen.setWidth 32))
    | .acct | .buf | .txt =>
      match s.mem.readBytes off 4 with
      | none => .fault .unwrittenByte
      | some bs => answerWith s (.word (joinLanes bs))
    | .reserved => .fault .busError
  else .fault .busError

/-- Answer a write as taken, once what it started is over (R59). -/
def acknowledge : Host.Outcome State Fault Refusal → Host.Outcome State Fault Refusal
  | .next s => .next (s.addAnswer .written)
  | .fault f => .fault f
  | .refused r => .refused r

/-- A word is written to CMD: the command it encodes runs to its end (R21, R23, R59, R70); an illegal
word raises ContractViolation (R77, R202 (a)). -/
def runCommand (w : Word) (s : State) : Host.Outcome State Fault Refusal :=
  match decode w with
  | .ok i => exec i s
  | .error _ => .next (commit s (.raised .contractViolation none))

/-- `BusWrite(off, 1, v)`: an array byte (R55); anything else is a bus error (R57). -/
def busWrite8 (off : Nat) (v : Byte) (s : State) : Host.Outcome State Fault Refusal :=
  if isArrayRegion (region off) then acknowledge (.next (s.setMem (s.mem.write off v)))
  else .fault .busError

/-- `BusWrite(off, 4, v)`: CMD runs a command; a read/write register takes its defined fields, reserved
bits ignored (R54); an array word takes four bytes (R55, R56); anything else, STATUS included, is a bus
error (R57). -/
def busWrite32 (off : Nat) (v : Word) (s : State) : Host.Outcome State Fault Refusal :=
  if wordPlaced off then
    match region off with
    | .cmd => acknowledge (runCommand v s)
    | .status => .fault .busError
    | .flags => acknowledge (.next (s.setFlags (v.setWidth 2)))
    | .wc => acknowledge (.next (s.setWc (v.setWidth 8)))
    | .crc => acknowledge (.next (s.setCrc (v.setWidth 16)))
    | .txtLen => acknowledge (.next (s.setTxtLen (v.setWidth 9)))
    | .acct | .buf | .txt => acknowledge (.next (s.setMem (s.mem.writeBytes off (splitLanes v))))
    | .reserved => .fault .busError
  else .fault .busError

/-! ## Events -/

/-- Where an access goes. -/
def accessPlace : BusAccess → Place
  | .rd8 p | .rd32 p | .wr8 p _ | .wr32 p _ => p

/-- An access at window offset `off`, by its kind (R53). -/
def accessAt (a : BusAccess) (off : Nat) (s : State) : Host.Outcome State Fault Refusal :=
  match a with
  | .rd8 _ => busRead8 off s
  | .rd32 _ => busRead32 off s
  | .wr8 _ v => busWrite8 off v s
  | .wr32 _ v => busWrite32 off v s

/-- One host access; outside the window it does not reach the block (R51; log entry 10). -/
def busAccess (a : BusAccess) (s : State) : Host.Outcome State Fault Refusal :=
  match placeOffset (accessPlace a) with
  | some off => accessAt a off s
  | none => .next s

/-- One event at the block's pins: an access, or reset; an access during which reset is asserted has
no effect (R230, R231). -/
def deliver (e : HostEvent) (s : State) : Host.Outcome State Fault Refusal :=
  match e with
  | .access a => busAccess a s
  | .reset => .next s.pulseReset
  | .resetDuring _ => .next s.pulseReset

/-- Take the next event that reaches the block, in the order the events reach its port (R61). With no
event there the block is idle, all state held (R216, R232; log entry 3). -/
def nextEvent (s : State) : Host.Outcome State Fault Refusal :=
  match s.port with
  | [] => .next s
  | e :: rest => deliver e (s.setPort rest)

/-- The event that hands the block one command word: a 4-byte write of it to CMD (R70). -/
def commandEvent (w : Word) : HostEvent := .access (.wr32 (.offset 0x000) w)

end Sys2Proof.Machine
end

