-- ==== Sys2Proof/Machine/Step.lean ====
section
/-! DEFINITION. One step of the machine: the next event at the block's port, to its end (R59, R61). -/

namespace Sys2Proof.Machine

/-- One step (R237: one bus access, with the command it may start, is one step). -/
def step (s : State) : Host.Outcome State Fault Refusal := nextEvent s

/-- `s` with the command word whose bits are `w` as the next access that reaches the block: the write
of it to CMD (R70; log entry 1). -/
def State.withFetchWord (s : State) (nbits w : Nat) : State :=
  s.setPort (commandEvent (wordOfBits nbits w) :: s.port)

end Sys2Proof.Machine
end

