-- ==== Sys2Proof/Machine/Script.lean ====
section
/-! DEFINITION. Assembler syntax (R79), host scripts (R80) and the pseudo-instructions (R81): what
each line puts on the bus (log entry 17). -/

namespace Sys2Proof.Machine

/-- The mnemonic of a command (R74, R79). -/
def mnemonic : Instr → String
  | .crcCompute => "CRC.COMPUTE"
  | .crcVerify => "CRC.VERIFY"
  | .b64EncStd => "B64.ENC.STD"
  | .b64EncUrl => "B64.ENC.URL"
  | .b64DecStd => "B64.DEC.STD"
  | .b64DecUrl => "B64.DEC.URL"
  | .b64DecGuess => "B64.DEC.GUESS"
  | .bufBuild => "BUF.BUILD"
  | .bufParse => "BUF.PARSE"
  | .addrEncStd => "ADDR.ENC.STD"
  | .addrEncUrl => "ADDR.ENC.URL"
  | .addrDecStd => "ADDR.DEC.STD"
  | .addrDecUrl => "ADDR.DEC.URL"
  | .addrDecGuess => "ADDR.DEC.GUESS"

/-- The commands in the order of R74. -/
def allInstrs : List Instr :=
  [.crcCompute, .crcVerify, .b64EncStd, .b64EncUrl, .b64DecStd, .b64DecUrl, .b64DecGuess,
    .bufBuild, .bufParse, .addrEncStd, .addrEncUrl, .addrDecStd, .addrDecUrl, .addrDecGuess]

/-- The word a mnemonic fixes, in any letter case (R79); `none` for any other text. -/
def assemble (m : String) : Option Word :=
  (allInstrs.find? fun i => decide ((mnemonic i).toList = m.toList.map Char.toUpper)).map encode

/-- Window offset of CMD (R80). -/
abbrev cmdOffset : Nat := 0x000

/-- Window offset of FLAGS (R80). -/
abbrev flagsOffset : Nat := 0x008

/-- Window offset of WC (R80). -/
abbrev wcOffset : Nat := 0x00C

/-- Window offset of TXT_LEN (R80). -/
abbrev txtLenOffset : Nat := 0x014

/-- `wr32 OFF, V` (R80). -/
def wr32 (off : Nat) (v : Word) : BusAccess := .wr32 (.offset off) v

/-- `wr8` of a byte sequence, one byte an access, from offset `off` on (R81). -/
def wr8Loop : Nat → List Byte → List BusAccess
  | _, [] => []
  | off, b :: bs => .wr8 (.offset off) b :: wr8Loop (off + 1) bs

/-- `rd8` of `n` bytes from offset `off` on (R81). -/
def rd8Loop : Nat → Nat → List BusAccess
  | _, 0 => []
  | off, n + 1 => .rd8 (.offset off) :: rd8Loop (off + 1) n

/-- `cmd MNEMONIC` (R80). -/
def cmdLine (i : Instr) : BusAccess := wr32 cmdOffset (encode i)

/-- The bus accesses of one script line (R80, R81). `len` is the value `rdtxt` reads from TXT_LEN: how
many characters the host goes on to read depends on it. -/
def expandLine (len : Nat) : ScriptLine → List BusAccess
  | .wr32 off v => [wr32 off v]
  | .rd32 off => [.rd32 (.offset off)]
  | .wr8 off v => [.wr8 (.offset off) v]
  | .rd8 off => [.rd8 (.offset off)]
  | .cmd i => [cmdLine i]
  | .addrEncStdDefault => [wr32 flagsOffset 0x1#32, cmdLine .addrEncStd]
  | .addrEncUrlDefault => [wr32 flagsOffset 0x1#32, cmdLine .addrEncUrl]
  | .addrDec => [cmdLine .addrDecGuess]
  | .wrflags b t => [wr32 flagsOffset (BitVec.ofNat 32 ((b &&& 1) ||| ((t &&& 1) <<< 1)))]
  | .wrwc n => [wr32 wcOffset ((BitVec.ofInt 8 n).setWidth 32)]
  | .wracct h => wr8Loop acctBase h
  | .wrbuf h => wr8Loop bufBase h
  | .wrtxt s => wr8Loop txtBase s ++ [wr32 txtLenOffset (BitVec.ofNat 32 s.length)]
  | .rdtxt => .rd32 (.offset txtLenOffset) :: rd8Loop txtBase len

/-- The host's accesses as events at the block's port, in order (R61, R80). -/
def scriptEvents (accesses : List BusAccess) : List HostEvent := accesses.map .access

end Sys2Proof.Machine
end

