-- ==== Sys2Proof/Safety.lean ====
section
/-! DEFINITION. What claims are stated in: legal STATUS values (R24, R201, R205), the machine's
invariant, the read and write sets of the commands (R75), and the end states a claim may accept (R238). -/

namespace Sys2Proof.Machine

/-! ## The invariant -/

/-- The codes STATUS.ERR can hold: 0x0..0x4 and 0xF (R24). -/
def legalErr (e : BitVec 4) : Bool := decide (e.toNat ≤ 4) || decide (e = 0xF#4)

/-- A STATUS value the block can hold (R24, R205): 0 before any command has run; after one, DONE = 1,
ERR and AU legal, MATCH = 1 only beside ERR = 0 and AU = 00 (a CRC.VERIFY that agreed), and AU = 00
beside ContractViolation (R32). -/
def legalStatus (v : BitVec 8) : Bool :=
  decide (v = 0#8) ||
    (statusDone v && legalErr (statusErr v) && decide (statusAu v ≠ 0b11#2) &&
      (!statusMatch v || (decide (statusErr v = 0#4) && decide (statusAu v = 0b00#2))) &&
      (decide (statusErr v ≠ 0xF#4) || decide (statusAu v = 0b00#2)))

/-- Every listed offset is that of an array byte (R52). -/
def Memory.placed (m : Memory) : Bool := m.all fun c => isArrayRegion (region c.1)

/-- The machine's invariant: the memory in canonical form and only at array offsets, STATUS legal, and
a reported ContractViolation on record (R202). -/
def State.Inv (s : State) : Prop :=
  s.mem.wf = true ∧ Memory.placed s.mem = true ∧ legalStatus s.status = true ∧
    (statusErr s.status = 0xF#4 → s.violated = true)

/-- An end state a claim may accept: the host's last access has completed and no ContractViolation is on
record (R238). A run that met another fault has no state at all. DESIGN CHOICE, unsafe (log entry 19):
R238 does not say what becomes of a run that a reset interrupts; this looks at the end state alone, so
it accepts such a run too, also where the reset cleared the record of an earlier ContractViolation. -/
def State.acceptable (s : State) : Bool := s.port.isEmpty && !s.violated

/-! ## The opcode map -/

/-- The opcode map, word by word as R74 prints it. -/
def commandTable : List (Word × Instr) :=
  [(0x00000001#32, .crcCompute), (0x00000002#32, .crcVerify),
    (0x00000003#32, .b64EncStd), (0x00000013#32, .b64EncUrl),
    (0x00000004#32, .b64DecStd), (0x00000014#32, .b64DecUrl), (0x00000024#32, .b64DecGuess),
    (0x00000005#32, .bufBuild), (0x00000006#32, .bufParse),
    (0x00000007#32, .addrEncStd), (0x00000017#32, .addrEncUrl),
    (0x00000008#32, .addrDecStd), (0x00000018#32, .addrDecUrl), (0x00000028#32, .addrDecGuess)]

/-- The six commands that read the text (R202 (b)). -/
def decodesText : Instr → Bool
  | .b64DecStd | .b64DecUrl | .b64DecGuess | .addrDecStd | .addrDecUrl | .addrDecGuess => true
  | .crcCompute | .crcVerify | .b64EncStd | .b64EncUrl | .bufBuild | .bufParse | .addrEncStd
  | .addrEncUrl => false

/-- The ERR values a command can end with (R203). -/
def errsOf : Instr → List (BitVec 4)
  | .crcCompute | .crcVerify | .b64EncStd | .b64EncUrl | .bufBuild | .addrEncStd | .addrEncUrl =>
    [0x0#4]
  | .b64DecStd | .b64DecUrl | .b64DecGuess => [0x0#4, 0x1#4, 0x2#4, 0xF#4]
  | .bufParse => [0x0#4, 0x3#4, 0x4#4]
  | .addrDecStd | .addrDecUrl | .addrDecGuess => [0x0#4, 0x1#4, 0x2#4, 0x3#4, 0x4#4, 0xF#4]

/-! ## Read and write sets (R75) -/

/-- `a` is the offset of one of the `n` bytes from `base` on. -/
def within (base n a : Nat) : Bool := decide (base ≤ a) && decide (a < base + n)

/-- The array bytes a command reads, by offset (R75); a text command reads TXT[0..LEN-1]. -/
def readsByte : Instr → State → Nat → Bool
  | .crcCompute, _, a | .crcVerify, _, a => within 0x040 34 a
  | .b64EncStd, _, a | .b64EncUrl, _, a | .bufParse, _, a => within 0x040 36 a
  | .b64DecStd, s, a | .b64DecUrl, s, a | .b64DecGuess, s, a
  | .addrDecStd, s, a | .addrDecUrl, s, a | .addrDecGuess, s, a => within 0x100 s.txtLen.toNat a
  | .bufBuild, _, a | .addrEncStd, _, a | .addrEncUrl, _, a => within 0x020 32 a

/-- The array bytes a command writes on success, by offset (R75). -/
def writesByte : Instr → Nat → Bool
  | .crcCompute, _ | .crcVerify, _ => false
  | .b64EncStd, a | .b64EncUrl, a => within 0x100 48 a
  | .b64DecStd, a | .b64DecUrl, a | .b64DecGuess, a | .bufBuild, a => within 0x040 36 a
  | .bufParse, a => within 0x020 32 a
  | .addrEncStd, a | .addrEncUrl, a => within 0x040 36 a || within 0x100 48 a
  | .addrDecStd, a | .addrDecUrl, a | .addrDecGuess, a => within 0x040 36 a || within 0x020 32 a

/-- Two states that look the same to the read set of a command: its array bytes, and CRC, TXT_LEN,
FLAGS and WC where it reads them (R75). -/
def agreeOnReads (i : Instr) (s u : State) : Prop :=
  (∀ a, readsByte i s a = true → s.mem.read a = u.mem.read a) ∧
    (i = .crcVerify → s.crc = u.crc) ∧
    (decodesText i = true → s.txtLen = u.txtLen) ∧
    (i ∈ [Instr.bufBuild, .addrEncStd, .addrEncUrl] → s.flags = u.flags ∧ s.wc = u.wc)

end Sys2Proof.Machine
end

