-- ==== Sys2Proof/Certificates/Slice0/Obligations.lean ====
section
/-! DEFINITION. The statements about the model, each from the rules of spec/ its docstring names. -/

open Sys2Proof Sys2Proof.Machine

/-! ## Command words -/

/-- R74: a word is the command of its row of the opcode map, and no other word is a command. -/
def Obligations.DecodeAcceptsExactlyTheOpcodeMap : Prop :=
  ∀ (w : Word) (i : Instr), decode w = .ok i ↔ (w, i) ∈ commandTable

/-- Decode and encode agree in both directions: no word and no command is lost (R71 to R74). -/
def Obligations.DecodeAndEncodeAreInverse : Prop :=
  (∀ i : Instr, i.wf = true → decode (encode i) = .ok i) ∧
    ∀ (w : Word) (i : Instr), decode w = .ok i → encode i = w

/-- A word of each family, written out from R71 to R73, decodes to its command. -/
def Obligations.WrittenOutWordsDecode : Prop :=
  decode 0b00000000000000000000000000000001#32 = .ok .crcCompute ∧
    decode 0b00000000000000000000000000010011#32 = .ok .b64EncUrl ∧
    decode 0b00000000000000000000000000100100#32 = .ok .b64DecGuess ∧
    decode 0b00000000000000000000000000000110#32 = .ok .bufParse ∧
    decode 0b00000000000000000000000000011000#32 = .ok .addrDecUrl

/-- R77: the listed kinds of words are none of the opcode map, and a word outside the map, written to
CMD, raises ContractViolation: STATUS becomes 0x8F, the record is set, nothing else changes. -/
def Obligations.IllegalWordsRaiseContractViolation : Prop :=
  (∀ w : Word,
    (wordOp w = 0x0#4 ∨ 0x9 ≤ (wordOp w).toNat ∨ wordAlph w = 0b11#2 ∨
        (wordAlph w ≠ 0b00#2 ∧ wordOp w ∈ [0x1#4, 0x2#4, 0x5#4, 0x6#4]) ∨
        (wordAlph w = 0b10#2 ∧ wordOp w ∈ [0x3#4, 0x7#4]) ∨ wordRsv w ≠ 0#26) →
      w ∉ commandTable.map Prod.fst) ∧
    ∀ (w : Word) (s : State) (rest : List HostEvent),
      w ∉ commandTable.map Prod.fst → s.port = commandEvent w :: rest →
        step s = .next { s with
          status := 0x8F#8, violated := true, port := rest, answers := .written :: s.answers }

/-! ## Steps -/

/-- A legal command word written to CMD runs its command, on the state without that event, to its end;
then the write is answered. A fault of the command is the step's (R21, R59, R70). -/
def Obligations.StepRunsTheDecodedCommand : Prop :=
  ∀ (s : State) (rest : List HostEvent) (w : Word) (i : Instr),
    s.port = commandEvent w :: rest → decode w = .ok i →
      (∀ t, exec i { s with port := rest } = .next t →
        step s = .next { t with answers := .written :: t.answers }) ∧
      (∀ f, exec i { s with port := rest } = .fault f → step s = .fault f)

/-- An access to offset `off` of the window is the bus primitive of its kind at `off`, on the state
without that event (R53, R61). -/
def Obligations.StepDeliversTheNextAccess : Prop :=
  ∀ (s : State) (rest : List HostEvent) (off : Nat) (b : Byte) (v : Word), off < 0x200 →
    step { s with port := .access (.rd8 (.offset off)) :: rest } =
        busRead8 off { s with port := rest } ∧
      step { s with port := .access (.rd32 (.offset off)) :: rest } =
        busRead32 off { s with port := rest } ∧
      step { s with port := .access (.wr8 (.offset off) b) :: rest } =
        busWrite8 off b { s with port := rest } ∧
      step { s with port := .access (.wr32 (.offset off) v) :: rest } =
        busWrite32 off v { s with port := rest }

/-- With no event at its port the block is idle and holds all its state: the model's reading of R216
and R232 (log entry 3). -/
def Obligations.IdleBlockHoldsItsState : Prop :=
  ∀ s : State, s.port = [] → step s = .next s

/-- R51: BASE is a multiple of 0x200, an access to host address BASE + off is one to window offset off,
and one outside the window does not reach the block. -/
def Obligations.HostAddressIsBasePlusOffset : Prop :=
  Config.base % 0x200 = 0 ∧
    ∀ (s : State) (rest : List HostEvent) (b : Byte) (v : Word) (k : Place → BusAccess),
      k ∈ [BusAccess.rd8, BusAccess.rd32, fun p => BusAccess.wr8 p b, fun p => BusAccess.wr32 p v] →
        (∀ off, off < 0x200 →
          step { s with port := .access (k (.address (Config.base + off))) :: rest } =
            step { s with port := .access (k (.offset off)) :: rest }) ∧
        (∀ addr, addr < Config.base ∨ Config.base + 0x200 ≤ addr →
          step { s with port := .access (k (.address addr)) :: rest } =
            .next { s with port := rest })

/-! ## Reset -/

/-- R36: every register and array byte after reset, and what CMD reads. -/
def Obligations.ResetLeavesTheStatedValues : Prop :=
  State.reset.status = 0x00#8 ∧ State.reset.flags = 0x1#2 ∧ State.reset.wc = 0x00#8 ∧
    State.reset.crc = 0x0000#16 ∧ State.reset.txtLen = 0#9 ∧
    (∀ a, State.reset.mem.read a = none) ∧
    busRead32 0x000 State.reset = .next (State.reset.addAnswer (.word 0x00000000#32))

/-- A reset pulse, also one during an access, leaves the block as after reset from every state: the
registers and marks of R36, no ContractViolation on record. That the events still to come and the
answers given stay is the model's choice (log entry 11). -/
def Obligations.ResetPulseRestoresReset : Prop :=
  ∀ (s : State) (e : HostEvent) (rest : List HostEvent),
    s.port = e :: rest → (e = .reset ∨ ∃ a, e = .resetDuring a) →
      step s = .next { State.reset with port := rest, answers := s.answers }

/-! ## Bus accesses -/

/-- R54: a control register takes aligned words only; a write stores its defined fields and ignores the
reserved bits; a read gives the register with its reserved bits 0. -/
def Obligations.ControlRegisterAccess : Prop :=
  ∀ (s : State) (b : Byte) (v : Word),
    (∀ off, off < 0x018 →
      busRead8 off s = .fault .busError ∧ busWrite8 off b s = .fault .busError ∧
        (off % 4 ≠ 0 → busRead32 off s = .fault .busError ∧ busWrite32 off v s = .fault .busError)) ∧
    busWrite32 0x008 v s = .next { s with
      flags := v.extractLsb' 0 2, answers := .written :: s.answers } ∧
    busWrite32 0x00C v s = .next { s with
      wc := v.extractLsb' 0 8, answers := .written :: s.answers } ∧
    busWrite32 0x010 v s = .next { s with
      crc := v.extractLsb' 0 16, answers := .written :: s.answers } ∧
    busWrite32 0x014 v s = .next { s with
      txtLen := v.extractLsb' 0 9, answers := .written :: s.answers } ∧
    busRead32 0x000 s = .next (s.addAnswer (.word 0#32)) ∧
    busRead32 0x004 s = .next (s.addAnswer (.word (0#24 ++ s.status))) ∧
    busRead32 0x008 s = .next (s.addAnswer (.word (0#30 ++ s.flags))) ∧
    busRead32 0x00C s = .next (s.addAnswer (.word (0#24 ++ s.wc))) ∧
    busRead32 0x010 s = .next (s.addAnswer (.word (0#16 ++ s.crc))) ∧
    busRead32 0x014 s = .next (s.addAnswer (.word (0#23 ++ s.txtLen)))

/-- R55, R57: exactly the accesses to reserved offsets, of a size or alignment not allowed, and the
writes to STATUS are bus errors; the array regions take bytes and aligned words. -/
def Obligations.BusErrorExactlyWhereStated : Prop :=
  ∀ (s : State) (b : Byte) (v : Word) (off : Nat), off < 0x200 →
    let array := (0x020 ≤ off ∧ off < 0x040) ∨ (0x040 ≤ off ∧ off < 0x064) ∨ 0x100 ≤ off
    (busRead8 off s = .fault .busError ↔ ¬ array) ∧
      (busWrite8 off b s = .fault .busError ↔ ¬ array) ∧
      (busRead32 off s = .fault .busError ↔ ¬ (off % 4 = 0 ∧ (off < 0x018 ∨ array))) ∧
      (busWrite32 off v s = .fault .busError ↔
        ¬ (off % 4 = 0 ∧ (off < 0x018 ∨ array) ∧ off ≠ 0x004))

/-- Lane order: in a 4-byte access to an array the byte at off + k travels in bits [8k+7:8k], in reads
and in writes, and a 1-byte access reaches the same byte (R56). Nothing else changes. -/
def Obligations.ArrayWordsTravelInLittleEndianLanes : Prop :=
  ∀ (s : State) (off : Nat), off % 4 = 0 →
    ((0x020 ≤ off ∧ off < 0x040) ∨ (0x040 ≤ off ∧ off < 0x064) ∨ (0x100 ≤ off ∧ off < 0x200)) →
      (∀ b : Fin 4 → Byte, (∀ k : Fin 4, s.mem.read (off + k) = some (b k)) →
        (∃ v : Word, (∀ k : Fin 4, v.extractLsb' (8 * k) 8 = b k) ∧
          busRead32 off s = .next (s.addAnswer (.word v))) ∧
        ∀ k : Fin 4, busRead8 (off + k) s = .next (s.addAnswer (.byte (b k)))) ∧
      ∀ v : Word, ∃ m : Memory,
        busWrite32 off v s = .next { s with mem := m, answers := .written :: s.answers } ∧
          (∀ k : Fin 4, m.read (off + k) = some (v.extractLsb' (8 * k) 8)) ∧
          ∀ a, (a < off ∨ off + 4 ≤ a) → m.read a = s.mem.read a

/-- R58: a read changes nothing but the answers and answers the same again; a write to a read/write
register or array byte changes that register or those bytes only. -/
def Obligations.OnlyCommandWritesHaveSideEffects : Prop :=
  (∀ (s t : State) (off : Nat),
      (busRead8 off s = .next t →
        ∃ a, t = s.addAnswer a ∧ busRead8 off t = .next (t.addAnswer a)) ∧
      (busRead32 off s = .next t →
        ∃ a, t = s.addAnswer a ∧ busRead32 off t = .next (t.addAnswer a))) ∧
    (∀ (s t : State) (off : Nat) (b : Byte), busWrite8 off b s = .next t →
      t = { s with mem := t.mem, answers := .written :: s.answers } ∧
        t.mem.read off = some b ∧ ∀ a, a ≠ off → t.mem.read a = s.mem.read a) ∧
    ∀ (s t : State) (off : Nat) (v : Word), off ≠ 0x000 → busWrite32 off v s = .next t →
      t.status = s.status ∧ t.violated = s.violated ∧ t.port = s.port ∧
        t.answers = .written :: s.answers ∧
        (off ≠ 0x008 → t.flags = s.flags) ∧ (off ≠ 0x00C → t.wc = s.wc) ∧
        (off ≠ 0x010 → t.crc = s.crc) ∧ (off ≠ 0x014 → t.txtLen = s.txtLen) ∧
        (off < 0x020 → t.mem = s.mem) ∧
        ∀ a, (a < off ∨ off + 4 ≤ a) → t.mem.read a = s.mem.read a

/-- A read gives what the latest write stored: array bytes and the fields of the four read/write
registers (R54, R61). -/
def Obligations.ReadGivesTheLatestWrite : Prop :=
  (∀ (s : State) (off : Nat) (b : Byte),
      ((0x020 ≤ off ∧ off < 0x064) ∨ (0x100 ≤ off ∧ off < 0x200)) →
        ∃ t, busWrite8 off b s = .next t ∧ busRead8 off t = .next (t.addAnswer (.byte b))) ∧
    ∀ (s : State) (v : Word),
      (∃ t, busWrite32 0x008 v s = .next t ∧
        busRead32 0x008 t = .next (t.addAnswer (.word (v &&& 0x00000003#32)))) ∧
      (∃ t, busWrite32 0x00C v s = .next t ∧
        busRead32 0x00C t = .next (t.addAnswer (.word (v &&& 0x000000FF#32)))) ∧
      (∃ t, busWrite32 0x010 v s = .next t ∧
        busRead32 0x010 t = .next (t.addAnswer (.word (v &&& 0x0000FFFF#32)))) ∧
      ∃ t, busWrite32 0x014 v s = .next t ∧
        busRead32 0x014 t = .next (t.addAnswer (.word (v &&& 0x000001FF#32)))

/-- R35: the written marks. Reset clears every mark; a host write and a committed command write set
theirs; a discarded staged write sets none; a command whose read set holds an unwritten byte faults, and
only then; a host read of an unwritten byte faults. -/
def Obligations.UnwrittenBytesFault : Prop :=
  (∀ a, State.reset.mem.read a = none) ∧
    (∀ (s t : State) (off : Nat) (b : Byte), busWrite8 off b s = .next t → t.mem.read off = some b) ∧
    (∀ (s t : State) (off : Nat) (v : Word), 0x020 ≤ off → busWrite32 off v s = .next t →
      ∀ k : Fin 4, (t.mem.read (off + k)).isSome = true) ∧
    (∀ (i : Instr) (s t : State) (a : Nat), exec i s = .next t → statusErr t.status = 0x0#4 →
      writesByte i a = true → (t.mem.read a).isSome = true) ∧
    (∀ (i : Instr) (s t : State), exec i s = .next t → statusErr t.status ≠ 0x0#4 → t.mem = s.mem) ∧
    (∀ (i : Instr) (s : State), (decodesText i = true → s.txtLen.toNat ≤ 256) →
      (exec i s = .fault .unwrittenByte ↔
        ∃ a, readsByte i s a = true ∧ s.mem.read a = none)) ∧
    (∀ (s : State) (off : Nat),
      ((0x020 ≤ off ∧ off < 0x064) ∨ (0x100 ≤ off ∧ off < 0x200)) →
        (s.mem.read off = none → busRead8 off s = .fault .unwrittenByte) ∧
        (off % 4 = 0 → (∃ k : Fin 4, s.mem.read (off + k) = none) →
          busRead32 off s = .fault .unwrittenByte))

/-! ## Checksum Engine -/

/-- CRC.COMPUTE: the checksum of BUF[0..33] goes to CRC, STATUS becomes 0x80, nothing else changes
(R103). -/
def Obligations.CrcComputeResult : Prop :=
  ∀ (s : State) (b : List Byte), s.mem.readBytes 0x040 34 = some b →
    exec .crcCompute s = .next { s with crc := crc16 b, status := 0x80#8 }

/-- CRC.VERIFY: STATUS.MATCH says whether the checksum of BUF[0..33] is CRC, ERR stays 0, nothing else
changes (R104). -/
def Obligations.CrcVerifyResult : Prop :=
  ∀ (s : State) (b : List Byte), s.mem.readBytes 0x040 34 = some b →
    (crc16 b = s.crc → exec .crcVerify s = .next { s with status := 0x90#8 }) ∧
      (crc16 b ≠ s.crc → exec .crcVerify s = .next { s with status := 0x80#8 })

/-- R105: the checksum is linear over GF(2), and zero on zeros. -/
def Obligations.Crc16IsLinear : Prop :=
  (∀ a b : List Byte, a.length = b.length →
      crc16 (List.zipWith (· ^^^ ·) a b) = crc16 a ^^^ crc16 b) ∧
    ∀ n : Nat, crc16 (List.replicate n 0#8) = 0x0000#16

open Polynomial in
/-- R101: over GF(2), with byte 0 bit 7 as the highest term of M(x), the checksum is the remainder of
M(x)·x^16 divided by x^16 + x^12 + x^5 + 1; and the check value of "123456789". -/
def Obligations.Crc16IsThePolynomialRemainder : Prop :=
  (∀ s : List Byte,
      ((s.foldl (fun p b => p * X ^ 8 + ∑ k ∈ Finset.range 8, if b.getLsbD k then X ^ k else 0)
          (0 : (ZMod 2)[X])) * X ^ 16) %ₘ (X ^ 16 + X ^ 12 + X ^ 5 + 1) =
        ∑ k ∈ Finset.range 16, if (crc16 s).getLsbD k then X ^ k else 0) ∧
    crc16 [0x31#8, 0x32#8, 0x33#8, 0x34#8, 0x35#8, 0x36#8, 0x37#8, 0x38#8, 0x39#8] = 0x31C3#16

/-- A buffer whose last two bytes hold its checksum, with exactly one of its 288 bits flipped, no longer
does (R106; its count over the README buffer is not stated here). -/
def Obligations.EverySingleBitFlipIsSeen : Prop :=
  ∀ (b : List Byte) (i k : Nat), b.length = 36 → crc16 (b.take 34) = storedSum b → i < 36 → k < 8 →
    crc16 ((b.set i (b.getD i 0#8 ^^^ (1#8 <<< k))).take 34) ≠
      storedSum (b.set i (b.getD i 0#8 ^^^ (1#8 <<< k)))

/-! ## Base64 Codec -/

/-- R120, R121, R122: the two tables, and `val` as their inverse. -/
def Obligations.AlphabetTables : Prop :=
  (∀ (A : Alphabet) (v : BitVec 6),
      (v.toNat ≤ 25 → (alpha A v).toNat = 0x41 + v.toNat) ∧
      (26 ≤ v.toNat ∧ v.toNat ≤ 51 → (alpha A v).toNat = 0x61 + (v.toNat - 26)) ∧
      (52 ≤ v.toNat ∧ v.toNat ≤ 61 → (alpha A v).toNat = 0x30 + (v.toNat - 52))) ∧
    alpha .standard 62#6 = 0x2B#8 ∧ alpha .standard 63#6 = 0x2F#8 ∧
    alpha .urlSafe 62#6 = 0x2D#8 ∧ alpha .urlSafe 63#6 = 0x5F#8 ∧
    ∀ (A : Alphabet) (c : Byte) (v : BitVec 6), charVal A c = some v ↔ alpha A v = c

/-- R125: alphabet selection, the both-sets case first; in guess mode only the four exclusive
characters count. -/
def Obligations.AlphabetSelection : Prop :=
  ∀ t : List Byte,
    selectAlphabet .standard t = .ok .standard ∧ selectAlphabet .urlSafe t = .ok .urlSafe ∧
      ((0x2D#8 ∈ t ∨ 0x5F#8 ∈ t) ∧ (0x2B#8 ∈ t ∨ 0x2F#8 ∈ t) →
        selectAlphabet .guess t = .error .invalidBase64) ∧
      ((0x2D#8 ∈ t ∨ 0x5F#8 ∈ t) ∧ ¬ (0x2B#8 ∈ t ∨ 0x2F#8 ∈ t) →
        selectAlphabet .guess t = .ok .urlSafe) ∧
      (¬ (0x2D#8 ∈ t ∨ 0x5F#8 ∈ t) → selectAlphabet .guess t = .ok .standard)

/-- B64.ENC.STD and B64.ENC.URL: the text of BUF goes to TXT[0..47], TXT_LEN becomes 48, STATUS 0xA0 or
0xC0, nothing else changes (R134, R135). -/
def Obligations.B64EncodeResult : Prop :=
  ∀ (s : State) (b : List Byte), s.mem.readBytes 0x040 36 = some b →
    exec .b64EncStd s = .next { s with
        mem := s.mem.writeBytes 0x100 (b64enc .standard b), txtLen := 48#9, status := 0xA0#8 } ∧
      exec .b64EncUrl s = .next { s with
        mem := s.mem.writeBytes 0x100 (b64enc .urlSafe b), txtLen := 48#9, status := 0xC0#8 }

/-- R126: the 48 characters of 36 bytes, three bytes most significant bit first to four characters, no
padding; what the encode commands write to TXT and TXT_LEN, and what they leave of TXT. -/
def Obligations.EncodedTextIsStandardBase64 : Prop :=
  (∀ (A : Alphabet) (b : List Byte), b.length = 36 →
      (b64enc A b).length = 48 ∧ 0x3D#8 ∉ b64enc A b ∧
        ∀ g, g < 12 →
          let v : BitVec 24 := b.getD (3 * g) 0#8 ++ b.getD (3 * g + 1) 0#8 ++ b.getD (3 * g + 2) 0#8
          (b64enc A b)[4 * g]? = some (alpha A (v.extractLsb' 18 6)) ∧
            (b64enc A b)[4 * g + 1]? = some (alpha A (v.extractLsb' 12 6)) ∧
            (b64enc A b)[4 * g + 2]? = some (alpha A (v.extractLsb' 6 6)) ∧
            (b64enc A b)[4 * g + 3]? = some (alpha A (v.extractLsb' 0 6))) ∧
    ∀ (s t : State) (b : List Byte) (A : Alphabet) (i : Instr),
      (i, A) ∈ [(Instr.b64EncStd, Alphabet.standard), (.b64EncUrl, .urlSafe)] →
        s.mem.readBytes 0x040 36 = some b → exec i s = .next t →
          t.txtLen = 48#9 ∧ t.mem.readBytes 0x100 48 = some (b64enc A b) ∧
            ∀ j, 48 ≤ j → j < 256 → t.mem.read (0x100 + j) = s.mem.read (0x100 + j)

/-- R129: how many bytes a body of m characters yields, and that only 48 yield 36. -/
def Obligations.DecodedLength : Prop :=
  ∀ vs : List (BitVec 6), vs.length % 4 ≠ 1 →
    (assembleBits vs 0 0).1.length =
        3 * (vs.length / 4) + (if vs.length % 4 = 2 then 1 else if vs.length % 4 = 3 then 2 else 0) ∧
      ((assembleBits vs 0 0).1.length = 36 ↔ vs.length = 48)

/-- R131: when decoding succeeds, exactly, and with which bits, the same under every padding policy. -/
def Obligations.DecodeSucceedsExactly : Prop :=
  ∀ (P : PadPolicy) (A : Alphabet) (t : List Byte),
    ((∃ b, b64decWith P A t = .ok b) ↔
        t.length = 48 ∧ 0x3D#8 ∉ t ∧ ∀ c ∈ t, (charVal A c).isSome = true) ∧
      ∀ b, b64decWith P A t = .ok b →
        (∀ Q : PadPolicy, b64decWith Q A t = .ok b) ∧ b.length = 36 ∧
          ∀ j, j < 288 →
            (b.getD (j / 8) 0#8).getMsbD (j % 8) =
              ((charVal A (t.getD (j / 6) 0#8)).getD 0#6).getMsbD (j % 6)

/-- R132: encoding and decoding are inverse to each other, under every padding policy: a bijection
between 36-byte buffers and 48-character texts over the alphabet. -/
def Obligations.Base64RoundTrip : Prop :=
  ∀ (P : PadPolicy) (A : Alphabet),
    (∀ b : List Byte, b.length = 36 → b64decWith P A (b64enc A b) = .ok b) ∧
      (∀ t b : List Byte, b64decWith P A t = .ok b → b64enc A b = t) ∧
      ∀ t : List Byte, t.length = 48 → (∀ c ∈ t, ∃ v, alpha A v = c) →
        ∃! b : List Byte, b.length = 36 ∧ b64enc A b = t

/-- What a failing decode reports (R128, R130). Under every policy, a byte outside the alphabet that is no
trailing `'='`, or a text of 1 mod 4 characters, is InvalidBase64, and a text over the alphabet of a
multiple of 4 characters other than 48 is InvalidLength. A body `u` of 2 or 3 mod 4 characters, with `p`
times `'='` after it: leftover bits that are not all 0 are InvalidBase64 under every policy, before the
length is looked at; where they are all 0, InvalidLength if the policy takes the padding as it stands,
InvalidBase64 if not. -/
def Obligations.DecodeErrorsInOrder : Prop :=
  ∀ (P : PadPolicy) (A : Alphabet) (t : List Byte),
    ((∃ u c v, t = u ++ c :: v ∧ charVal A c = none ∧ (c ≠ 0x3D#8 ∨ ∃ d ∈ v, d ≠ 0x3D#8)) →
        b64decWith P A t = .error .invalidBase64) ∧
      ((∀ c ∈ t, (charVal A c).isSome = true) → t.length % 4 = 1 →
        b64decWith P A t = .error .invalidBase64) ∧
      ((∀ c ∈ t, (charVal A c).isSome = true) → t.length % 4 = 0 → t.length ≠ 48 →
        b64decWith P A t = .error .invalidLength) ∧
      ∀ (u : List Byte) (p : Nat) (c : Byte) (v : BitVec 6),
        t = u ++ List.replicate p 0x3D#8 → (∀ d ∈ u, (charVal A d).isSome = true) →
          u.getLast? = some c → charVal A c = some v →
            (u.length % 4 = 2 ∧ v.extractLsb' 0 4 ≠ 0#4 ∨ u.length % 4 = 3 ∧ v.extractLsb' 0 2 ≠ 0#2 →
              b64decWith P A t = .error .invalidBase64) ∧
            (u.length % 4 = 2 ∧ v.extractLsb' 0 4 = 0#4 ∨ u.length % 4 = 3 ∧ v.extractLsb' 0 2 = 0#2 →
              if p = 0 ∧ P ≠ .requireCanonical ∨
                  (0 < p ∧ p ≤ 2 ∧ t.length % 4 = 0 ∧ P ≠ .reject) then
                b64decWith P A t = .error .invalidLength
              else b64decWith P A t = .error .invalidBase64)

/-- R127: the three padding policies, on a text of `n` characters that ends in `p` times `'='` and no
more. -/
def Obligations.PaddingPolicies : Prop :=
  ∀ (A : Alphabet) (u : List Byte) (p : Nat), (∀ c, u.getLast? = some c → c ≠ 0x3D#8) →
    let t := u ++ List.replicate p 0x3D#8
    (0 < p → b64decWith .reject A t = .error .invalidBase64) ∧
      (∀ P : PadPolicy, 0 < p → (2 < p ∨ t.length % 4 ≠ 0) →
        b64decWith P A t = .error .invalidBase64) ∧
      (p = 0 → t.length % 4 ≠ 0 → b64decWith .requireCanonical A t = .error .invalidBase64) ∧
      (p ≤ 2 → t.length % 4 = 0 → ∀ vs, charVals A u = some vs →
        b64decWith .acceptCanonical A t = decodeVals vs ∧
          b64decWith .requireCanonical A t = decodeVals vs) ∧
      (p = 0 → ∀ vs, charVals A u = some vs →
        b64decWith .reject A t = decodeVals vs ∧ b64decWith .acceptCanonical A t = decodeVals vs)

/-- B64.DEC.*: a 48-character text over the selected alphabet decodes: the buffer it encodes goes to
BUF, STATUS becomes 0xA0 or 0xC0, nothing else changes. Guess mode takes Standard unless a `'-'` or
`'_'` shows UrlSafe (R131, R132, R136 to R138). -/
def Obligations.B64DecodeResult : Prop :=
  ∀ (s : State) (t : List Byte) (A : Alphabet), s.txtLen = 48#9 →
    s.mem.readBytes 0x100 48 = some t → (∀ c ∈ t, (charVal A c).isSome = true) →
      ∃ b : List Byte, b.length = 36 ∧ b64enc A b = t ∧
        (A = .standard →
          exec .b64DecStd s = .next { s with
              mem := s.mem.writeBytes 0x040 b, status := 0xA0#8 } ∧
            exec .b64DecGuess s = .next { s with
              mem := s.mem.writeBytes 0x040 b, status := 0xA0#8 }) ∧
        (A = .urlSafe →
          exec .b64DecUrl s = .next { s with
              mem := s.mem.writeBytes 0x040 b, status := 0xC0#8 } ∧
            exec .b64DecGuess s = .next { s with
              mem := s.mem.writeBytes 0x040 b,
              status := if 0x2D#8 ∈ t ∨ 0x5F#8 ∈ t then 0xC0#8 else 0xA0#8 })

/-- B64.DEC.* on a text that does not decode: only STATUS changes, to the error with the alphabet
selected so far, 00 where guess mode finds both exclusive sets (R32, R136 to R138). -/
def Obligations.B64DecodeFailure : Prop :=
  ∀ (s : State) (t : List Byte) (e : Err), s.txtLen.toNat ≤ 256 →
    s.mem.readBytes 0x100 s.txtLen.toNat = some t →
      (b64dec .standard t = .error e →
        exec .b64DecStd s = .next { s with status := 0xA0#8 ||| (errCode e).setWidth 8 } ∧
          (¬ (0x2D#8 ∈ t ∨ 0x5F#8 ∈ t) →
            exec .b64DecGuess s = .next { s with status := 0xA0#8 ||| (errCode e).setWidth 8 })) ∧
      (b64dec .urlSafe t = .error e →
        exec .b64DecUrl s = .next { s with status := 0xC0#8 ||| (errCode e).setWidth 8 } ∧
          (0x2D#8 ∈ t ∨ 0x5F#8 ∈ t → ¬ (0x2B#8 ∈ t ∨ 0x2F#8 ∈ t) →
            exec .b64DecGuess s = .next { s with status := 0xC0#8 ||| (errCode e).setWidth 8 })) ∧
      ((0x2D#8 ∈ t ∨ 0x5F#8 ∈ t) → (0x2B#8 ∈ t ∨ 0x2F#8 ∈ t) →
        exec .b64DecGuess s = .next { s with status := 0x81#8 })

/-- R133: the guess law. -/
def Obligations.GuessLaw : Prop :=
  ∀ (s : State) (t : List Byte), s.mem.readBytes 0x100 s.txtLen.toNat = some t →
    ((0x2B#8 ∈ t ∨ 0x2F#8 ∈ t) → ¬ (0x2D#8 ∈ t ∨ 0x5F#8 ∈ t) →
        exec .b64DecGuess s = exec .b64DecStd s) ∧
      ((0x2D#8 ∈ t ∨ 0x5F#8 ∈ t) → ¬ (0x2B#8 ∈ t ∨ 0x2F#8 ∈ t) →
        exec .b64DecGuess s = exec .b64DecUrl s) ∧
      (¬ (0x2D#8 ∈ t ∨ 0x5F#8 ∈ t) → ¬ (0x2B#8 ∈ t ∨ 0x2F#8 ∈ t) →
        exec .b64DecGuess s = exec .b64DecStd s ∧
          (∀ b, b64dec .standard t = .ok b ↔ b64dec .urlSafe t = .ok b) ∧
          (Config.padPolicyStd = Config.padPolicyUrl →
            b64dec .standard t = b64dec .urlSafe t) ∧
          ∀ u, s.txtLen.toNat ≤ 256 → exec .b64DecGuess s = .next u →
            statusAu u.status = 0b01#2)

/-! ## Address Buffer Builder -/

/-- R161, R162: the flag byte's table, its bit form, and its decoding by whole byte. -/
def Obligations.FlagByteTable : Prop :=
  flagByte true false = 0x11#8 ∧ flagByte false false = 0x51#8 ∧
    flagByte true true = 0x91#8 ∧ flagByte false true = 0xD1#8 ∧
    (∀ bnc tst : Bool,
      flagByte bnc tst =
        0x11#8 ||| ((if bnc then 0#8 else 1#8) <<< 6) ||| ((if tst then 1#8 else 0#8) <<< 7)) ∧
    (∀ bnc tst : Bool, flagDecode (flagByte bnc tst) = .ok (bnc, tst)) ∧
    ∀ f : Byte, f ∉ [0x11#8, 0x51#8, 0x91#8, 0xD1#8] → flagDecode f = .error .invalidFlag

/-- R165: the 36 bytes `build36` returns, the checksum big-endian at 34 and 35. -/
def Obligations.BuiltBufferLayout : Prop :=
  ∀ (bnc tst : Bool) (wc : Byte) (acct : List Byte), acct.length = 32 →
    let b := build36 bnc tst wc acct
    b.length = 36 ∧ b[0]? = some (flagByte bnc tst) ∧ b[1]? = some wc ∧
      (∀ i, i < 32 → b[2 + i]? = acct[i]?) ∧
      b[34]? = some ((crc16 (b.take 34)).extractLsb' 8 8) ∧
      b[35]? = some ((crc16 (b.take 34)).extractLsb' 0 8)

/-- BUF.BUILD: the buffer built from FLAGS, WC and ACCT goes to BUF, STATUS becomes 0x80, nothing else
changes, CRC included (R167). -/
def Obligations.BufBuildResult : Prop :=
  ∀ (s : State) (a : List Byte), s.mem.readBytes 0x020 32 = some a →
    exec .bufBuild s = .next { s with
      mem := s.mem.writeBytes 0x040 (build36 (s.flags.getLsbD 0) (s.flags.getLsbD 1) s.wc a),
      status := 0x80#8 }

/-- BUF.PARSE: a valid buffer is unpacked into WC, ACCT and FLAGS; an unknown flag byte gives STATUS
0x83, a wrong checksum 0x84, the flag checked first, and then nothing else changes (R166, R168). -/
def Obligations.BufParseResult : Prop :=
  ∀ (s : State) (b : List Byte), s.mem.readBytes 0x040 36 = some b →
    (∀ bnc tst : Bool, b.getD 0 0#8 = flagByte bnc tst →
      (crc16 (b.take 34) = b.getD 34 0#8 ++ b.getD 35 0#8 →
        exec .bufParse s = .next { s with
          wc := b.getD 1 0#8, flags := BitVec.ofBool tst ++ BitVec.ofBool bnc,
          mem := s.mem.writeBytes 0x020 ((b.drop 2).take 32), status := 0x80#8 }) ∧
      (crc16 (b.take 34) ≠ b.getD 34 0#8 ++ b.getD 35 0#8 →
        exec .bufParse s = .next { s with status := 0x84#8 })) ∧
    (b.getD 0 0#8 ∉ [0x11#8, 0x51#8, 0x91#8, 0xD1#8] →
      exec .bufParse s = .next { s with status := 0x83#8 })

/-- R169: parsing a built buffer gives back what it was built from, and BUF.BUILD then BUF.PARSE leaves
FLAGS, WC and ACCT as they were, with ERR = 0. -/
def Obligations.BuildThenParse : Prop :=
  (∀ (bnc tst : Bool) (wc : Byte) (acct : List Byte), acct.length = 32 →
      parse36 (build36 bnc tst wc acct) = .ok { wc := wc, acct := acct, bnc := bnc, tst := tst }) ∧
    ∀ (s : State) (a : List Byte), s.mem.readBytes 0x020 32 = some a →
      ∃ t u, exec .bufBuild s = .next t ∧ exec .bufParse t = .next u ∧
        u.flags = s.flags ∧ u.wc = s.wc ∧ u.mem.readBytes 0x020 32 = some a ∧
        statusErr u.status = 0x0#4

/-- R170: what BUF.PARSE's check makes of a built buffer with one bit flipped. -/
def Obligations.ParseOutcomeOfABitFlip : Prop :=
  ∀ (bnc tst : Bool) (wc : Byte) (acct : List Byte) (i k : Nat), acct.length = 32 → i < 36 → k < 8 →
    let b := build36 bnc tst wc acct
    let b' := b.set i (b.getD i 0#8 ^^^ (1#8 <<< k))
    (i = 0 ∧ k < 6 → parse36 b' = .error .invalidFlag) ∧
      (i = 0 ∧ 6 ≤ k → parse36 b' = .error .checksumMismatch) ∧
      (0 < i → parse36 b' = .error .checksumMismatch)

/-! ## Address pipelines -/

/-- ADDR.ENC.STD and ADDR.ENC.URL: the buffer built from FLAGS, WC and ACCT goes to BUF, its text to
TXT[0..47], TXT_LEN becomes 48, STATUS 0xA0 or 0xC0, nothing else changes (R180 to R182). -/
def Obligations.AddrEncodeResult : Prop :=
  ∀ (s : State) (a : List Byte), s.mem.readBytes 0x020 32 = some a →
    let b := build36 (s.flags.getLsbD 0) (s.flags.getLsbD 1) s.wc a
    exec .addrEncStd s = .next { s with
        mem := (s.mem.writeBytes 0x040 b).writeBytes 0x100 (b64enc .standard b),
        txtLen := 48#9, status := 0xA0#8 } ∧
      exec .addrEncUrl s = .next { s with
        mem := (s.mem.writeBytes 0x040 b).writeBytes 0x100 (b64enc .urlSafe b),
        txtLen := 48#9, status := 0xC0#8 }

/-- ADDR.DEC.*: the text of a friendly address is decoded and unpacked: its buffer goes to BUF, its
fields to WC, ACCT and FLAGS, STATUS becomes 0xA0 or 0xC0, nothing else changes (R183 to R186). -/
def Obligations.AddrDecodeResult : Prop :=
  ∀ (s : State) (bnc tst : Bool) (wc : Byte) (acct : List Byte) (A : Alphabet), acct.length = 32 →
    let b := build36 bnc tst wc acct
    let t := b64enc A b
    let after (v : BitVec 8) : State := { s with
      mem := (s.mem.writeBytes 0x040 b).writeBytes 0x020 acct, wc := wc,
      flags := BitVec.ofBool tst ++ BitVec.ofBool bnc, status := v }
    s.txtLen = 48#9 → s.mem.readBytes 0x100 48 = some t →
      (A = .standard →
        exec .addrDecStd s = .next (after 0xA0#8) ∧ exec .addrDecGuess s = .next (after 0xA0#8)) ∧
      (A = .urlSafe →
        exec .addrDecUrl s = .next (after 0xC0#8) ∧
          exec .addrDecGuess s =
            .next (after (if 0x2D#8 ∈ t ∨ 0x5F#8 ∈ t then 0xC0#8 else 0xA0#8)))

/-- One command reports one error, the first of the pipeline (R183, R204): ContractViolation before any
byte is read, then an unwritten byte, then selection, decoding, the flag, the checksum. Only STATUS and
the record change. -/
def Obligations.AddrDecodeErrorPriority : Prop :=
  ∀ (s : State) (i : Instr) (mode : AlphMode),
    (i, mode) ∈ [(Instr.addrDecStd, AlphMode.standard), (.addrDecUrl, .urlSafe),
      (.addrDecGuess, .guess)] →
    (256 < s.txtLen.toNat → exec i s = .next { s with status := 0x8F#8, violated := true }) ∧
      (s.txtLen.toNat ≤ 256 → s.mem.readBytes 0x100 s.txtLen.toNat = none →
        exec i s = .fault .unwrittenByte) ∧
      ∀ t : List Byte, s.txtLen.toNat ≤ 256 → s.mem.readBytes 0x100 s.txtLen.toNat = some t →
        (∀ e, selectAlphabet mode t = .error e → exec i s = .next { s with status := 0x81#8 }) ∧
        ∀ A : Alphabet, selectAlphabet mode t = .ok A →
          let au : BitVec 8 := if A = .standard then 0xA0#8 else 0xC0#8
          (∀ e, b64dec A t = .error e →
            exec i s = .next { s with status := au ||| (errCode e).setWidth 8 }) ∧
          ∀ b, b64dec A t = .ok b →
            (b.getD 0 0#8 ∉ [0x11#8, 0x51#8, 0x91#8, 0xD1#8] →
              exec i s = .next { s with status := au ||| 0x03#8 }) ∧
            (b.getD 0 0#8 ∈ [0x11#8, 0x51#8, 0x91#8, 0xD1#8] → crc16 (b.take 34) ≠ storedSum b →
              exec i s = .next { s with status := au ||| 0x04#8 })

/-- R188: ADDR.ENC with an alphabet, then ADDR.DEC with the same alphabet or guessing, ends with
ERR = 0 and gives back WC, ACCT and FLAGS. -/
def Obligations.AddressRoundTrip : Prop :=
  ∀ (s : State) (a : List Byte) (enc dec : Instr), s.mem.readBytes 0x020 32 = some a →
    (enc, dec) ∈ [(Instr.addrEncStd, Instr.addrDecStd), (.addrEncStd, .addrDecGuess),
      (.addrEncUrl, .addrDecUrl), (.addrEncUrl, .addrDecGuess)] →
      ∃ t u, exec enc s = .next t ∧ exec dec t = .next u ∧ statusErr u.status = 0x0#4 ∧
        u.wc = s.wc ∧ u.flags = s.flags ∧ u.mem.readBytes 0x020 32 = some a

/-- R189 word for word: replace any one character of an encoded address by any other byte, and ADDR.DEC
never succeeds in any mode. EXPECTED TO FAIL: where the text holds exactly one character of value 62 or
63, putting the other alphabet's character of the same value there gives the other alphabet's text of
the same address (log entry 18). -/
def Obligations.AnySubstitutionIsRejected : Prop :=
  ∀ (bnc tst : Bool) (wc : Byte) (acct : List Byte) (A : Alphabet) (i : Nat) (c : Byte)
    (mode : AlphMode), acct.length = 32 → i < 48 →
    let t := b64enc A (build36 bnc tst wc acct)
    c ≠ t.getD i 0#8 →
      ∀ B b p, decodeText mode (t.set i c) = .ok (B, b) → parse36 b ≠ .ok p

/-- What holds of R189, which is all of it but what R188 and R128 deny (log entry 18): a substitution that
does not leave the text of the same address in one of the alphabets is never accepted, in any mode, and
only STATUS changes. A text that mixes both exclusive sets is InvalidBase64; so is one with a byte
outside the selected alphabet, but for an `'='` in the last place, which a padding policy may take: then
InvalidLength. Otherwise the decoded buffer differs from the original, in bits of one character only,
and the command ends with InvalidFlag or ChecksumMismatch. -/
def Obligations.ValueChangingSubstitutionIsRejected : Prop :=
  ∀ (s : State) (bnc tst : Bool) (wc : Byte) (acct : List Byte) (A : Alphabet) (i : Nat) (c : Byte)
    (dec : Instr) (mode : AlphMode), acct.length = 32 → i < 48 →
    let b := build36 bnc tst wc acct
    let t := (b64enc A b).set i c
    (∀ B : Alphabet, t ≠ b64enc B b) →
      s.txtLen = 48#9 → s.mem.readBytes 0x100 48 = some t →
        (dec, mode) ∈ [(Instr.addrDecStd, AlphMode.standard), (.addrDecUrl, .urlSafe),
          (.addrDecGuess, .guess)] →
          ∃ v, exec dec s = .next { s with status := v } ∧
            (selectAlphabet mode t = .error .invalidBase64 → statusErr v = 0x1#4) ∧
            ∀ B, selectAlphabet mode t = .ok B →
              ((∃ d ∈ t, charVal B d = none) →
                statusErr v = 0x1#4 ∨ (statusErr v = 0x2#4 ∧ i = 47 ∧ c = 0x3D#8)) ∧
              ((∀ d ∈ t, (charVal B d).isSome = true) →
                statusErr v ∈ [0x3#4, 0x4#4] ∧
                  ∃ b', b64dec B t = .ok b' ∧ b' ≠ b ∧
                    ∀ j, j < 288 → j / 6 ≠ i →
                      (b'.getD (j / 8) 0#8).getMsbD (j % 8) = (b.getD (j / 8) 0#8).getMsbD (j % 8))

/-! ## All commands -/

/-- R202: ContractViolation, its two cases and its effect; no other case raises it, and no later command
clears its record. -/
def Obligations.ContractViolationCases : Prop :=
  (∀ (w : Word) (s : State),
      (w ∉ commandTable.map Prod.fst ∨
        (w ∈ [0x04#32, 0x14#32, 0x24#32, 0x08#32, 0x18#32, 0x28#32] ∧ 256 < s.txtLen.toNat)) →
        runCommand w s = .next { s with status := 0x8F#8, violated := true }) ∧
    (∀ (w : Word) (s t : State), runCommand w s = .next t → statusErr t.status = 0xF#4 →
      (w ∉ commandTable.map Prod.fst ∨
        (w ∈ [0x04#32, 0x14#32, 0x24#32, 0x08#32, 0x18#32, 0x28#32] ∧ 256 < s.txtLen.toNat))) ∧
    ∀ (w : Word) (s t : State), s.violated = true → runCommand w s = .next t → t.violated = true

/-- Only a reset clears the record of a ContractViolation (R202, R230). -/
def Obligations.ViolationStaysUntilReset : Prop :=
  ∀ (s t : State), s.violated = true → step s = .next t →
    (∀ e rest, s.port = e :: rest → e ≠ .reset ∧ ∀ a, e ≠ .resetDuring a) → t.violated = true

/-- R203: the ERR values each command can end with; any illegal word ends with 0xF. -/
def Obligations.ErrorsByCommand : Prop :=
  (∀ (i : Instr) (s t : State), exec i s = .next t → statusErr t.status ∈ errsOf i) ∧
    ∀ (w : Word) (s : State), w ∉ commandTable.map Prod.fst →
      ∃ t, runCommand w s = .next t ∧ statusErr t.status = 0xF#4

/-- R205: the STATUS value; every command, legal or not, ends by writing one with DONE = 1, and MATCH is
1 only for a CRC.VERIFY whose checksums agree. -/
def Obligations.StatusAfterACommand : Prop :=
  (∀ (e : BitVec 4) (m : Bool) (au : Option Alphabet),
      statusValue e m au =
        0x80#8 ||| ((auCode au).setWidth 8 <<< 5) ||| ((BitVec.ofBool m).setWidth 8 <<< 4) |||
          e.setWidth 8) ∧
    ∀ (w : Word) (s t : State), runCommand w s = .next t →
      (∃ e m au, t.status = statusValue e m au) ∧
        (statusMatch t.status = true →
          decode w = .ok .crcVerify ∧ ∃ b, s.mem.readBytes 0x040 34 = some b ∧ crc16 b = s.crc)

/-- R32's account of AU: the alphabet an encode used, the one a decode selected also when it then
raises, and 00 otherwise. -/
def Obligations.StatusReportsTheAlphabet : Prop :=
  ∀ (i : Instr) (s t : State), exec i s = .next t →
    (i ∈ [Instr.crcCompute, .crcVerify, .bufBuild, .bufParse] → statusAu t.status = 0b00#2) ∧
      (i ∈ [Instr.b64EncStd, .addrEncStd] → statusAu t.status = 0b01#2) ∧
      (i ∈ [Instr.b64EncUrl, .addrEncUrl] → statusAu t.status = 0b10#2) ∧
      (decodesText i = true → 256 < s.txtLen.toNat → statusAu t.status = 0b00#2) ∧
      (s.txtLen.toNat ≤ 256 →
        (i ∈ [Instr.b64DecStd, .addrDecStd] → statusAu t.status = 0b01#2) ∧
        (i ∈ [Instr.b64DecUrl, .addrDecUrl] → statusAu t.status = 0b10#2) ∧
        (i ∈ [Instr.b64DecGuess, .addrDecGuess] → ∀ x,
          s.mem.readBytes 0x100 s.txtLen.toNat = some x →
            (selectAlphabet .guess x = .error .invalidBase64 → statusAu t.status = 0b00#2) ∧
            (∀ A, selectAlphabet .guess x = .ok A → statusAu t.status = auCode (some A))))

/-- R206 and R33: after a failed command everything but STATUS (and the record of a ContractViolation)
is what it was before, whatever word was written. -/
def Obligations.FailedCommandChangesOnlyStatus : Prop :=
  ∀ (w : Word) (s t : State), runCommand w s = .next t → statusErr t.status ≠ 0x0#4 →
    t = { s with status := t.status, violated := t.violated }

/-- The write sets of R75 as a frame: a command leaves every register and every byte of the arrays that
is not in its write set as it was, and what the host sends and was answered. -/
def Obligations.CommandsWriteOnlyTheirWriteSet : Prop :=
  ∀ (i : Instr) (s t : State), exec i s = .next t →
    (i ≠ .crcCompute → t.crc = s.crc) ∧
      (i ∉ [Instr.bufParse, .addrDecStd, .addrDecUrl, .addrDecGuess] →
        t.flags = s.flags ∧ t.wc = s.wc) ∧
      (i ∉ [Instr.b64EncStd, .b64EncUrl, .addrEncStd, .addrEncUrl] → t.txtLen = s.txtLen) ∧
      (decodesText i = false → t.violated = s.violated) ∧
      t.port = s.port ∧ t.answers = s.answers ∧
      ∀ a, writesByte i a = false → t.mem.read a = s.mem.read a

/-- The read sets of R75 as non-interference: a command run from two states that agree on its read set
ends the same way, with the same STATUS, and, if it succeeds, leaves the same values in its write set. -/
def Obligations.CommandsDependOnlyOnTheirReadSet : Prop :=
  ∀ (i : Instr) (s u : State), agreeOnReads i s u →
    (∀ f, exec i s = .fault f → exec i u = .fault f) ∧
      ∀ t, exec i s = .next t →
        ∃ v, exec i u = .next v ∧ v.status = t.status ∧
          (statusErr t.status = 0x0#4 →
            (i = .crcCompute → v.crc = t.crc) ∧
            (i ∈ [Instr.bufParse, .addrDecStd, .addrDecUrl, .addrDecGuess] →
              v.flags = t.flags ∧ v.wc = t.wc) ∧
            (i ∈ [Instr.b64EncStd, .b64EncUrl, .addrEncStd, .addrEncUrl] → v.txtLen = t.txtLen) ∧
            ∀ a, writesByte i a = true → v.mem.read a = t.mem.read a)

/-- R236: a command issued again at once leaves the state the first issue left. -/
def Obligations.ReissueLeavesTheSameState : Prop :=
  ∀ (i : Instr) (s t : State), exec i s = .next t → exec i t = .next t

/-- The block takes a command in every state whatever STATUS holds, and overwrites STATUS (R207). -/
def Obligations.CommandsIgnoreTheOldStatus : Prop :=
  ∀ (i : Instr) (s : State) (v : BitVec 8), exec i { s with status := v } = exec i s

/-- STATUS changes only by a write to CMD or a reset (R24). -/
def Obligations.StatusIsReadOnlyForTheHost : Prop :=
  ∀ (s t : State) (e : HostEvent) (rest : List HostEvent), s.port = e :: rest → step s = .next t →
    t.status ≠ s.status →
      e = .reset ∨ (∃ a, e = .resetDuring a) ∨
        ∃ p w, e = .access (.wr32 p w) ∧ placeOffset p = some 0x000

/-! ## The invariant -/

/-- Every step keeps the invariant, from every state that has it. -/
def Obligations.StepKeepsTheInvariant : Prop :=
  ∀ s t : State, s.Inv → step s = .next t → t.Inv

/-- The state after reset has the invariant. -/
def Obligations.ResetHasTheInvariant : Prop := State.reset.Inv

/-! ## Host scripts -/

/-- The mnemonic alone fixes the word, in any letter case (R79): in upper case as R74 prints it, and in
lower case. -/
def Obligations.MnemonicFixesTheWord : Prop :=
  ∀ i : Instr, assemble (mnemonic i) = some (encode i) ∧
    assemble (String.ofList ((mnemonic i).toList.map Char.toLower)) = some (encode i)

/-- An aligned word write to an array stores what four byte writes in lane order store (R56, R81). -/
def Obligations.WordWriteIsFourByteWrites : Prop :=
  ∀ (s : State) (off : Nat) (v : Word), off % 4 = 0 →
    ((0x020 ≤ off ∧ off < 0x064) ∨ (0x100 ≤ off ∧ off < 0x200)) →
      ∃ t t1 t2 t3 t4, busWrite32 off v s = .next t ∧
        busWrite8 off (v.extractLsb' 0 8) s = .next t1 ∧
        busWrite8 (off + 1) (v.extractLsb' 8 8) t1 = .next t2 ∧
        busWrite8 (off + 2) (v.extractLsb' 16 8) t2 = .next t3 ∧
        busWrite8 (off + 3) (v.extractLsb' 24 8) t3 = .next t4 ∧
        t4 = { t with answers := t4.answers }
end

