-- ==== Sys2Proof/Laws/State.lean ====
section
/-! SUPPORT. What each update of the state leaves in each field: one lemma per field per update. -/

namespace Sys2Proof.Machine

/-! ## Registers -/

@[simp] theorem State.setStatus_status (s : State) (v : BitVec 8) : (s.setStatus v).status = v := rfl
@[simp] theorem State.setStatus_flags (s : State) (v : BitVec 8) : (s.setStatus v).flags = s.flags := rfl
@[simp] theorem State.setStatus_wc (s : State) (v : BitVec 8) : (s.setStatus v).wc = s.wc := rfl
@[simp] theorem State.setStatus_crc (s : State) (v : BitVec 8) : (s.setStatus v).crc = s.crc := rfl
@[simp] theorem State.setStatus_txtLen (s : State) (v : BitVec 8) : (s.setStatus v).txtLen = s.txtLen := rfl
@[simp] theorem State.setStatus_mem (s : State) (v : BitVec 8) : (s.setStatus v).mem = s.mem := rfl
@[simp] theorem State.setStatus_violated (s : State) (v : BitVec 8) : (s.setStatus v).violated = s.violated := rfl
@[simp] theorem State.setStatus_port (s : State) (v : BitVec 8) : (s.setStatus v).port = s.port := rfl
@[simp] theorem State.setStatus_answers (s : State) (v : BitVec 8) : (s.setStatus v).answers = s.answers := rfl

/-! ## FLAGS -/

@[simp] theorem State.setFlags_status (s : State) (v : BitVec 2) : (s.setFlags v).status = s.status := rfl
@[simp] theorem State.setFlags_flags (s : State) (v : BitVec 2) : (s.setFlags v).flags = v := rfl
@[simp] theorem State.setFlags_wc (s : State) (v : BitVec 2) : (s.setFlags v).wc = s.wc := rfl
@[simp] theorem State.setFlags_crc (s : State) (v : BitVec 2) : (s.setFlags v).crc = s.crc := rfl
@[simp] theorem State.setFlags_txtLen (s : State) (v : BitVec 2) : (s.setFlags v).txtLen = s.txtLen := rfl
@[simp] theorem State.setFlags_mem (s : State) (v : BitVec 2) : (s.setFlags v).mem = s.mem := rfl
@[simp] theorem State.setFlags_violated (s : State) (v : BitVec 2) : (s.setFlags v).violated = s.violated := rfl
@[simp] theorem State.setFlags_port (s : State) (v : BitVec 2) : (s.setFlags v).port = s.port := rfl
@[simp] theorem State.setFlags_answers (s : State) (v : BitVec 2) : (s.setFlags v).answers = s.answers := rfl

/-! ## WC -/

@[simp] theorem State.setWc_status (s : State) (v : BitVec 8) : (s.setWc v).status = s.status := rfl
@[simp] theorem State.setWc_flags (s : State) (v : BitVec 8) : (s.setWc v).flags = s.flags := rfl
@[simp] theorem State.setWc_wc (s : State) (v : BitVec 8) : (s.setWc v).wc = v := rfl
@[simp] theorem State.setWc_crc (s : State) (v : BitVec 8) : (s.setWc v).crc = s.crc := rfl
@[simp] theorem State.setWc_txtLen (s : State) (v : BitVec 8) : (s.setWc v).txtLen = s.txtLen := rfl
@[simp] theorem State.setWc_mem (s : State) (v : BitVec 8) : (s.setWc v).mem = s.mem := rfl
@[simp] theorem State.setWc_violated (s : State) (v : BitVec 8) : (s.setWc v).violated = s.violated := rfl
@[simp] theorem State.setWc_port (s : State) (v : BitVec 8) : (s.setWc v).port = s.port := rfl
@[simp] theorem State.setWc_answers (s : State) (v : BitVec 8) : (s.setWc v).answers = s.answers := rfl

/-! ## CRC -/

@[simp] theorem State.setCrc_status (s : State) (v : BitVec 16) : (s.setCrc v).status = s.status := rfl
@[simp] theorem State.setCrc_flags (s : State) (v : BitVec 16) : (s.setCrc v).flags = s.flags := rfl
@[simp] theorem State.setCrc_wc (s : State) (v : BitVec 16) : (s.setCrc v).wc = s.wc := rfl
@[simp] theorem State.setCrc_crc (s : State) (v : BitVec 16) : (s.setCrc v).crc = v := rfl
@[simp] theorem State.setCrc_txtLen (s : State) (v : BitVec 16) : (s.setCrc v).txtLen = s.txtLen := rfl
@[simp] theorem State.setCrc_mem (s : State) (v : BitVec 16) : (s.setCrc v).mem = s.mem := rfl
@[simp] theorem State.setCrc_violated (s : State) (v : BitVec 16) : (s.setCrc v).violated = s.violated := rfl
@[simp] theorem State.setCrc_port (s : State) (v : BitVec 16) : (s.setCrc v).port = s.port := rfl
@[simp] theorem State.setCrc_answers (s : State) (v : BitVec 16) : (s.setCrc v).answers = s.answers := rfl

/-! ## TXT_LEN -/

@[simp] theorem State.setTxtLen_status (s : State) (v : BitVec 9) : (s.setTxtLen v).status = s.status := rfl
@[simp] theorem State.setTxtLen_flags (s : State) (v : BitVec 9) : (s.setTxtLen v).flags = s.flags := rfl
@[simp] theorem State.setTxtLen_wc (s : State) (v : BitVec 9) : (s.setTxtLen v).wc = s.wc := rfl
@[simp] theorem State.setTxtLen_crc (s : State) (v : BitVec 9) : (s.setTxtLen v).crc = s.crc := rfl
@[simp] theorem State.setTxtLen_txtLen (s : State) (v : BitVec 9) : (s.setTxtLen v).txtLen = v := rfl
@[simp] theorem State.setTxtLen_mem (s : State) (v : BitVec 9) : (s.setTxtLen v).mem = s.mem := rfl
@[simp] theorem State.setTxtLen_violated (s : State) (v : BitVec 9) : (s.setTxtLen v).violated = s.violated := rfl
@[simp] theorem State.setTxtLen_port (s : State) (v : BitVec 9) : (s.setTxtLen v).port = s.port := rfl
@[simp] theorem State.setTxtLen_answers (s : State) (v : BitVec 9) : (s.setTxtLen v).answers = s.answers := rfl

/-! ## Array bytes -/

@[simp] theorem State.setMem_status (s : State) (m : Memory) : (s.setMem m).status = s.status := rfl
@[simp] theorem State.setMem_flags (s : State) (m : Memory) : (s.setMem m).flags = s.flags := rfl
@[simp] theorem State.setMem_wc (s : State) (m : Memory) : (s.setMem m).wc = s.wc := rfl
@[simp] theorem State.setMem_crc (s : State) (m : Memory) : (s.setMem m).crc = s.crc := rfl
@[simp] theorem State.setMem_txtLen (s : State) (m : Memory) : (s.setMem m).txtLen = s.txtLen := rfl
@[simp] theorem State.setMem_mem (s : State) (m : Memory) : (s.setMem m).mem = m := rfl
@[simp] theorem State.setMem_violated (s : State) (m : Memory) : (s.setMem m).violated = s.violated := rfl
@[simp] theorem State.setMem_port (s : State) (m : Memory) : (s.setMem m).port = s.port := rfl
@[simp] theorem State.setMem_answers (s : State) (m : Memory) : (s.setMem m).answers = s.answers := rfl

/-! ## The record of a ContractViolation -/

@[simp] theorem State.recordViolation_status (s : State) (b : Bool) : (s.recordViolation b).status = s.status := rfl
@[simp] theorem State.recordViolation_flags (s : State) (b : Bool) : (s.recordViolation b).flags = s.flags := rfl
@[simp] theorem State.recordViolation_wc (s : State) (b : Bool) : (s.recordViolation b).wc = s.wc := rfl
@[simp] theorem State.recordViolation_crc (s : State) (b : Bool) : (s.recordViolation b).crc = s.crc := rfl
@[simp] theorem State.recordViolation_txtLen (s : State) (b : Bool) : (s.recordViolation b).txtLen = s.txtLen := rfl
@[simp] theorem State.recordViolation_mem (s : State) (b : Bool) : (s.recordViolation b).mem = s.mem := rfl
@[simp] theorem State.recordViolation_violated (s : State) (b : Bool) : (s.recordViolation b).violated = (s.violated || b) := rfl
@[simp] theorem State.recordViolation_port (s : State) (b : Bool) : (s.recordViolation b).port = s.port := rfl
@[simp] theorem State.recordViolation_answers (s : State) (b : Bool) : (s.recordViolation b).answers = s.answers := rfl

/-! ## The port -/

@[simp] theorem State.setPort_status (s : State) (p : List HostEvent) : (s.setPort p).status = s.status := rfl
@[simp] theorem State.setPort_flags (s : State) (p : List HostEvent) : (s.setPort p).flags = s.flags := rfl
@[simp] theorem State.setPort_wc (s : State) (p : List HostEvent) : (s.setPort p).wc = s.wc := rfl
@[simp] theorem State.setPort_crc (s : State) (p : List HostEvent) : (s.setPort p).crc = s.crc := rfl
@[simp] theorem State.setPort_txtLen (s : State) (p : List HostEvent) : (s.setPort p).txtLen = s.txtLen := rfl
@[simp] theorem State.setPort_mem (s : State) (p : List HostEvent) : (s.setPort p).mem = s.mem := rfl
@[simp] theorem State.setPort_violated (s : State) (p : List HostEvent) : (s.setPort p).violated = s.violated := rfl
@[simp] theorem State.setPort_port (s : State) (p : List HostEvent) : (s.setPort p).port = p := rfl
@[simp] theorem State.setPort_answers (s : State) (p : List HostEvent) : (s.setPort p).answers = s.answers := rfl

/-! ## The answers -/

@[simp] theorem State.addAnswer_status (s : State) (a : Answer) : (s.addAnswer a).status = s.status := rfl
@[simp] theorem State.addAnswer_flags (s : State) (a : Answer) : (s.addAnswer a).flags = s.flags := rfl
@[simp] theorem State.addAnswer_wc (s : State) (a : Answer) : (s.addAnswer a).wc = s.wc := rfl
@[simp] theorem State.addAnswer_crc (s : State) (a : Answer) : (s.addAnswer a).crc = s.crc := rfl
@[simp] theorem State.addAnswer_txtLen (s : State) (a : Answer) : (s.addAnswer a).txtLen = s.txtLen := rfl
@[simp] theorem State.addAnswer_mem (s : State) (a : Answer) : (s.addAnswer a).mem = s.mem := rfl
@[simp] theorem State.addAnswer_violated (s : State) (a : Answer) : (s.addAnswer a).violated = s.violated := rfl
@[simp] theorem State.addAnswer_port (s : State) (a : Answer) : (s.addAnswer a).port = s.port := rfl
@[simp] theorem State.addAnswer_answers (s : State) (a : Answer) : (s.addAnswer a).answers = a :: s.answers := rfl

/-! ## Reset -/

@[simp] theorem State.pulseReset_status (s : State) : (s.pulseReset).status = 0x00#8 := rfl
@[simp] theorem State.pulseReset_flags (s : State) : (s.pulseReset).flags = 0b01#2 := rfl
@[simp] theorem State.pulseReset_wc (s : State) : (s.pulseReset).wc = 0x00#8 := rfl
@[simp] theorem State.pulseReset_crc (s : State) : (s.pulseReset).crc = 0x0000#16 := rfl
@[simp] theorem State.pulseReset_txtLen (s : State) : (s.pulseReset).txtLen = 0#9 := rfl
@[simp] theorem State.pulseReset_mem (s : State) : (s.pulseReset).mem = [] := rfl
@[simp] theorem State.pulseReset_violated (s : State) : (s.pulseReset).violated = false := rfl
@[simp] theorem State.pulseReset_port (s : State) : (s.pulseReset).port = s.port := rfl
@[simp] theorem State.pulseReset_answers (s : State) : (s.pulseReset).answers = s.answers := rfl

/-! ## Staged operands -/

@[simp] theorem State.stageAcct_status (s : State) (a : List Byte) : (s.stageAcct a).status = s.status := rfl
@[simp] theorem State.stageAcct_flags (s : State) (a : List Byte) : (s.stageAcct a).flags = s.flags := rfl
@[simp] theorem State.stageAcct_wc (s : State) (a : List Byte) : (s.stageAcct a).wc = s.wc := rfl
@[simp] theorem State.stageAcct_crc (s : State) (a : List Byte) : (s.stageAcct a).crc = s.crc := rfl
@[simp] theorem State.stageAcct_txtLen (s : State) (a : List Byte) : (s.stageAcct a).txtLen = s.txtLen := rfl
@[simp] theorem State.stageAcct_mem (s : State) (a : List Byte) : (s.stageAcct a).mem = s.mem.writeBytes acctBase a := rfl
@[simp] theorem State.stageAcct_violated (s : State) (a : List Byte) : (s.stageAcct a).violated = s.violated := rfl
@[simp] theorem State.stageAcct_port (s : State) (a : List Byte) : (s.stageAcct a).port = s.port := rfl
@[simp] theorem State.stageAcct_answers (s : State) (a : List Byte) : (s.stageAcct a).answers = s.answers := rfl

/-! ## Staged BUF -/

@[simp] theorem State.stageBuf_status (s : State) (b : List Byte) : (s.stageBuf b).status = s.status := rfl
@[simp] theorem State.stageBuf_flags (s : State) (b : List Byte) : (s.stageBuf b).flags = s.flags := rfl
@[simp] theorem State.stageBuf_wc (s : State) (b : List Byte) : (s.stageBuf b).wc = s.wc := rfl
@[simp] theorem State.stageBuf_crc (s : State) (b : List Byte) : (s.stageBuf b).crc = s.crc := rfl
@[simp] theorem State.stageBuf_txtLen (s : State) (b : List Byte) : (s.stageBuf b).txtLen = s.txtLen := rfl
@[simp] theorem State.stageBuf_mem (s : State) (b : List Byte) : (s.stageBuf b).mem = s.mem.writeBytes bufBase b := rfl
@[simp] theorem State.stageBuf_violated (s : State) (b : List Byte) : (s.stageBuf b).violated = s.violated := rfl
@[simp] theorem State.stageBuf_port (s : State) (b : List Byte) : (s.stageBuf b).port = s.port := rfl
@[simp] theorem State.stageBuf_answers (s : State) (b : List Byte) : (s.stageBuf b).answers = s.answers := rfl

/-! ## Staged text -/

@[simp] theorem State.stageText_status (s : State) (t : List Byte) : (s.stageText t).status = s.status := rfl
@[simp] theorem State.stageText_flags (s : State) (t : List Byte) : (s.stageText t).flags = s.flags := rfl
@[simp] theorem State.stageText_wc (s : State) (t : List Byte) : (s.stageText t).wc = s.wc := rfl
@[simp] theorem State.stageText_crc (s : State) (t : List Byte) : (s.stageText t).crc = s.crc := rfl
@[simp] theorem State.stageText_txtLen (s : State) (t : List Byte) : (s.stageText t).txtLen = 48#9 := rfl
@[simp] theorem State.stageText_mem (s : State) (t : List Byte) : (s.stageText t).mem = s.mem.writeBytes txtBase t := rfl
@[simp] theorem State.stageText_violated (s : State) (t : List Byte) : (s.stageText t).violated = s.violated := rfl
@[simp] theorem State.stageText_port (s : State) (t : List Byte) : (s.stageText t).port = s.port := rfl
@[simp] theorem State.stageText_answers (s : State) (t : List Byte) : (s.stageText t).answers = s.answers := rfl

/-! ## A staged address -/

@[simp] theorem State.stageParsed_status (s : State) (p : Parsed) : (s.stageParsed p).status = s.status := rfl
@[simp] theorem State.stageParsed_flags (s : State) (p : Parsed) : (s.stageParsed p).flags = flagsOf p.bnc p.tst := rfl
@[simp] theorem State.stageParsed_wc (s : State) (p : Parsed) : (s.stageParsed p).wc = p.wc := rfl
@[simp] theorem State.stageParsed_crc (s : State) (p : Parsed) : (s.stageParsed p).crc = s.crc := rfl
@[simp] theorem State.stageParsed_txtLen (s : State) (p : Parsed) : (s.stageParsed p).txtLen = s.txtLen := rfl
@[simp] theorem State.stageParsed_mem (s : State) (p : Parsed) : (s.stageParsed p).mem = s.mem.writeBytes acctBase p.acct := rfl
@[simp] theorem State.stageParsed_violated (s : State) (p : Parsed) : (s.stageParsed p).violated = s.violated := rfl
@[simp] theorem State.stageParsed_port (s : State) (p : Parsed) : (s.stageParsed p).port = s.port := rfl
@[simp] theorem State.stageParsed_answers (s : State) (p : Parsed) : (s.stageParsed p).answers = s.answers := rfl

/-! ## The end of a command -/

@[simp] theorem finish_status (s : State) (m : Bool) (au : Option Alphabet) : (finish s m au).status = statusValue errOk m au := rfl
@[simp] theorem finish_flags (s : State) (m : Bool) (au : Option Alphabet) : (finish s m au).flags = s.flags := rfl
@[simp] theorem finish_wc (s : State) (m : Bool) (au : Option Alphabet) : (finish s m au).wc = s.wc := rfl
@[simp] theorem finish_crc (s : State) (m : Bool) (au : Option Alphabet) : (finish s m au).crc = s.crc := rfl
@[simp] theorem finish_txtLen (s : State) (m : Bool) (au : Option Alphabet) : (finish s m au).txtLen = s.txtLen := rfl
@[simp] theorem finish_mem (s : State) (m : Bool) (au : Option Alphabet) : (finish s m au).mem = s.mem := rfl
@[simp] theorem finish_violated (s : State) (m : Bool) (au : Option Alphabet) : (finish s m au).violated = s.violated := rfl
@[simp] theorem finish_port (s : State) (m : Bool) (au : Option Alphabet) : (finish s m au).port = s.port := rfl
@[simp] theorem finish_answers (s : State) (m : Bool) (au : Option Alphabet) : (finish s m au).answers = s.answers := rfl

/-! ## A raised error -/

@[simp] theorem raiseError_status (s : State) (e : Err) (au : Option Alphabet) : (raiseError s e au).status = statusValue (errCode e) false au := rfl
@[simp] theorem raiseError_flags (s : State) (e : Err) (au : Option Alphabet) : (raiseError s e au).flags = s.flags := rfl
@[simp] theorem raiseError_wc (s : State) (e : Err) (au : Option Alphabet) : (raiseError s e au).wc = s.wc := rfl
@[simp] theorem raiseError_crc (s : State) (e : Err) (au : Option Alphabet) : (raiseError s e au).crc = s.crc := rfl
@[simp] theorem raiseError_txtLen (s : State) (e : Err) (au : Option Alphabet) : (raiseError s e au).txtLen = s.txtLen := rfl
@[simp] theorem raiseError_mem (s : State) (e : Err) (au : Option Alphabet) : (raiseError s e au).mem = s.mem := rfl
@[simp] theorem raiseError_violated (s : State) (e : Err) (au : Option Alphabet) : (raiseError s e au).violated = (s.violated || decide (e = .contractViolation)) := rfl
@[simp] theorem raiseError_port (s : State) (e : Err) (au : Option Alphabet) : (raiseError s e au).port = s.port := rfl
@[simp] theorem raiseError_answers (s : State) (e : Err) (au : Option Alphabet) : (raiseError s e au).answers = s.answers := rfl

end Sys2Proof.Machine
end

