-- ==== Sys2Proof/Laws/Memory.lean ====
section
/-! SUPPORT. The array bytes: a write is read back and leaves every other byte alone, and every
operation keeps the canonical form and the array offsets. -/

namespace Sys2Proof.Machine

/-! ## One byte -/

@[simp] theorem Memory.read_nil (a : Nat) : Memory.read [] a = none := rfl

theorem Memory.read_write_same (m : Memory) (a : Nat) (b : Byte) : (m.write a b).read a = some b := by
  induction m with
  | nil => simp [Memory.write, Memory.read]
  | cons c m ih =>
    obtain ⟨k, v⟩ := c
    simp only [Memory.write]
    split
    · simp [Memory.read]
    · split
      · simp [Memory.read]
      · rename_i h
        simp [Memory.read, Ne.symm h, ih]

theorem Memory.read_write_ne (m : Memory) {a c : Nat} (b : Byte) (h : c ≠ a) :
    (m.write a b).read c = m.read c := by
  induction m with
  | nil => simp [Memory.write, Memory.read, h.symm]
  | cons e m ih =>
    obtain ⟨k, v⟩ := e
    simp only [Memory.write]
    split
    · simp [Memory.read, h.symm]
    · split
      · rename_i hk
        subst hk
        simp [Memory.read, h.symm]
      · simp only [Memory.read, ih]

/-! ## Byte sequences -/

@[simp] theorem Memory.readBytes_zero (m : Memory) (a : Nat) : m.readBytes a 0 = some [] := rfl

theorem Memory.readBytes_succ_eq (m : Memory) (a n : Nat) (bs : List Byte) :
    m.readBytes a (n + 1) = some bs ↔
      ∃ b rest, m.read a = some b ∧ m.readBytes (a + 1) n = some rest ∧ bs = b :: rest := by
  simp only [Memory.readBytes]
  cases m.read a <;> cases m.readBytes (a + 1) n <;> simp [eq_comm]

theorem Memory.length_readBytes {m : Memory} {a n : Nat} {bs : List Byte}
    (h : m.readBytes a n = some bs) : bs.length = n := by
  induction n generalizing a bs with
  | zero => simp_all [Memory.readBytes]
  | succ n ih =>
    obtain ⟨b, rest, _, hr, rfl⟩ := (Memory.readBytes_succ_eq ..).1 h
    simp [ih hr]

/-- Reading a sequence gives, byte by byte, what reading each byte gives. -/
theorem Memory.readBytes_eq_some_iff (m : Memory) (a n : Nat) (bs : List Byte) :
    m.readBytes a n = some bs ↔ bs.length = n ∧ ∀ i, i < n → m.read (a + i) = bs[i]? := by
  induction n generalizing a bs with
  | zero => cases bs <;> simp [Memory.readBytes]
  | succ n ih =>
    rw [Memory.readBytes_succ_eq]
    constructor
    · rintro ⟨b, rest, hb, hr, rfl⟩
      obtain ⟨hl, hi⟩ := (ih ..).1 hr
      refine ⟨by simp [hl], fun i hi' => ?_⟩
      cases i with
      | zero => simpa using hb
      | succ i => simpa [Nat.add_assoc, Nat.add_comm 1 i] using hi i (by omega)
    · rintro ⟨hl, hi⟩
      cases bs with
      | nil => simp at hl
      | cons b rest =>
        refine ⟨b, rest, by simpa using hi 0 (by omega), (ih ..).2 ⟨by simpa using hl, ?_⟩, rfl⟩
        intro i hi'
        simpa [Nat.add_assoc, Nat.add_comm 1 i] using hi (i + 1) (by omega)

/-- A sequence cannot be read exactly when one of its bytes is unwritten (R35). -/
theorem Memory.readBytes_eq_none_iff (m : Memory) (a n : Nat) :
    m.readBytes a n = none ↔ ∃ i, i < n ∧ m.read (a + i) = none := by
  induction n generalizing a with
  | zero => simp [Memory.readBytes]
  | succ n ih =>
    have key : m.readBytes a (n + 1) = none ↔ m.read a = none ∨ m.readBytes (a + 1) n = none := by
      simp only [Memory.readBytes]
      cases m.read a <;> cases m.readBytes (a + 1) n <;> simp
    rw [key, ih]
    constructor
    · rintro (h | ⟨i, hi, h⟩)
      · exact ⟨0, by omega, h⟩
      · exact ⟨i + 1, by omega, by rwa [← Nat.add_assoc, Nat.add_right_comm]⟩
    · rintro ⟨i, hi, h⟩
      cases i with
      | zero => exact .inl h
      | succ i => exact .inr ⟨i, by omega, by rwa [Nat.add_right_comm, Nat.add_assoc]⟩

/-- Two memories that read alike on a range give the same sequence there. -/
theorem Memory.readBytes_congr {m m' : Memory} {a n : Nat}
    (h : ∀ i, i < n → m.read (a + i) = m'.read (a + i)) : m.readBytes a n = m'.readBytes a n := by
  induction n generalizing a with
  | zero => rfl
  | succ n ih =>
    have h0 : m.read a = m'.read a := by simpa using h 0 (by omega)
    have h1 : m.readBytes (a + 1) n = m'.readBytes (a + 1) n :=
      ih fun i hi => by simpa [Nat.add_assoc, Nat.add_comm 1 i] using h (i + 1) (by omega)
    simp only [Memory.readBytes, h0, h1]

/-- Outside the bytes written, a sequence write changes no byte. -/
theorem Memory.read_writeBytes_outside (m : Memory) {a c : Nat} (bs : List Byte)
    (h : c < a ∨ a + bs.length ≤ c) : (m.writeBytes a bs).read c = m.read c := by
  induction bs generalizing m a with
  | nil => rfl
  | cons b bs ih =>
    simp only [List.length_cons] at h
    rw [Memory.writeBytes, ih _ (by omega), Memory.read_write_ne _ _ (by omega)]

/-- Inside the bytes written, a sequence write is read back. -/
theorem Memory.read_writeBytes_inside (m : Memory) {a i : Nat} (bs : List Byte) (h : i < bs.length) :
    (m.writeBytes a bs).read (a + i) = bs[i]? := by
  induction bs generalizing m a i with
  | nil => simp at h
  | cons b bs ih =>
    cases i with
    | zero =>
      rw [Memory.writeBytes, Memory.read_writeBytes_outside _ _ (by omega), Nat.add_zero,
        Memory.read_write_same]
      rfl
    | succ i =>
      have h' : i < bs.length := by simpa using h
      rw [Memory.writeBytes, show a + (i + 1) = a + 1 + i by omega, ih _ h']
      simp

/-- A sequence just written is read back. -/
theorem Memory.readBytes_writeBytes_same (m : Memory) (a : Nat) (bs : List Byte) :
    (m.writeBytes a bs).readBytes a bs.length = some bs :=
  (Memory.readBytes_eq_some_iff ..).2 ⟨rfl, fun _ hi => Memory.read_writeBytes_inside _ _ hi⟩

/-- A sequence write elsewhere leaves a sequence as it was. -/
theorem Memory.readBytes_writeBytes_disjoint (m : Memory) {a c n : Nat} (bs : List Byte)
    (h : c + n ≤ a ∨ a + bs.length ≤ c) : (m.writeBytes a bs).readBytes c n = m.readBytes c n :=
  Memory.readBytes_congr fun i hi => Memory.read_writeBytes_outside _ _ (by omega)

/-! ## The canonical form -/

/-- Every listed offset after the first is above `a`, and the offsets rise. -/
theorem Memory.wf_cons (a : Nat) (b : Byte) (m : Memory) :
    Memory.wf ((a, b) :: m) = true ↔ (∀ c ∈ m, a < c.1) ∧ m.wf = true := by
  induction m generalizing a b with
  | nil => simp [Memory.wf]
  | cons e m ih =>
    obtain ⟨k, v⟩ := e
    simp only [Memory.wf, Bool.and_eq_true, decide_eq_true_eq, List.mem_cons, forall_eq_or_imp]
    constructor
    · rintro ⟨hk, hm⟩
      exact ⟨⟨hk, fun c hc => lt_trans hk (((ih k v).1 hm).1 c hc)⟩, hm⟩
    · rintro ⟨⟨hk, _⟩, hm⟩
      exact ⟨hk, hm⟩

theorem Memory.mem_write {m : Memory} {a : Nat} {b : Byte} {c : Host.Cell} (h : c ∈ m.write a b) :
    c = (a, b) ∨ c ∈ m := by
  induction m with
  | nil => simpa [Memory.write] using h
  | cons e m ih =>
    obtain ⟨k, v⟩ := e
    simp only [Memory.write] at h
    split at h
    · simpa using h
    · split at h
      · rcases List.mem_cons.1 h with h | h
        · exact .inl h
        · exact .inr (List.mem_cons_of_mem _ h)
      · rcases List.mem_cons.1 h with h | h
        · exact .inr (h ▸ List.mem_cons_self)
        · exact (ih h).imp_right (List.mem_cons_of_mem _)

theorem Memory.wf_write {m : Memory} (a : Nat) (b : Byte) (h : m.wf = true) :
    (m.write a b).wf = true := by
  induction m with
  | nil => rfl
  | cons e m ih =>
    obtain ⟨k, v⟩ := e
    have hm := (Memory.wf_cons ..).1 h
    simp only [Memory.write]
    split
    · rename_i hlt
      refine (Memory.wf_cons ..).2 ⟨?_, h⟩
      simp only [List.mem_cons, forall_eq_or_imp]
      exact ⟨hlt, fun c hc => lt_trans hlt (hm.1 c hc)⟩
    · split
      · rename_i hk
        subst hk
        exact (Memory.wf_cons ..).2 hm
      · refine (Memory.wf_cons ..).2 ⟨fun c hc => ?_, ih hm.2⟩
        rcases Memory.mem_write hc with rfl | hc
        · dsimp only
          omega
        · exact hm.1 c hc

theorem Memory.wf_writeBytes {m : Memory} (a : Nat) (bs : List Byte) (h : m.wf = true) :
    (m.writeBytes a bs).wf = true := by
  induction bs generalizing m a with
  | nil => exact h
  | cons b bs ih => exact ih _ (Memory.wf_write a b h)

/-! ## The array offsets -/

theorem Memory.placed_write {m : Memory} {a : Nat} (b : Byte) (h : Memory.placed m = true)
    (ha : isArrayRegion (region a) = true) : Memory.placed (m.write a b) = true := by
  simp only [Memory.placed, List.all_eq_true] at h ⊢
  intro c hc
  rcases Memory.mem_write hc with rfl | hc
  · exact ha
  · exact h c hc

theorem Memory.placed_writeBytes {m : Memory} {a : Nat} {bs : List Byte}
    (h : Memory.placed m = true) (ha : ∀ i, i < bs.length → isArrayRegion (region (a + i)) = true) :
    Memory.placed (m.writeBytes a bs) = true := by
  induction bs generalizing m a with
  | nil => exact h
  | cons b bs ih =>
    refine ih (Memory.placed_write b h (by simpa using ha 0 (by simp))) fun i hi => ?_
    have := ha (i + 1) (by simpa using hi)
    rwa [show a + 1 + i = a + (i + 1) by omega]

end Sys2Proof.Machine
end

