-- ==== Sys2Proof/Laws/Ops.lean ====
section
/-! SUPPORT. What the shared operations of the commands can do, said once: the end of a command, the
frame `withBytes`, the frame `withText`, and the body each command hands them. -/

namespace Sys2Proof.Machine

/-! ## The end of a command -/

@[simp] theorem commit_done (s u : State) (m : Bool) (au : Option Alphabet) :
    commit s (.done u m au) = finish u m au := rfl

@[simp] theorem commit_raised (s : State) (e : Err) (au : Option Alphabet) :
    commit s (.raised e au) = raiseError s e au := rfl

@[simp] theorem statusErr_statusValue (e : BitVec 4) (m : Bool) (au : Option Alphabet) :
    statusErr (statusValue e m au) = e := by
  rcases au with _ | _ | _ <;> cases m <;> revert e <;> decide

@[simp] theorem statusMatch_statusValue (e : BitVec 4) (m : Bool) (au : Option Alphabet) :
    statusMatch (statusValue e m au) = m := by
  rcases au with _ | _ | _ <;> cases m <;> revert e <;> decide

@[simp] theorem statusAu_statusValue (e : BitVec 4) (m : Bool) (au : Option Alphabet) :
    statusAu (statusValue e m au) = auCode au := by
  rcases au with _ | _ | _ <;> cases m <;> revert e <;> decide

@[simp] theorem statusDone_statusValue (e : BitVec 4) (m : Bool) (au : Option Alphabet) :
    statusDone (statusValue e m au) = true := by
  rcases au with _ | _ | _ <;> cases m <;> revert e <;> decide

/-- No error is reported with the code of success. -/
theorem errCode_ne_zero (e : Err) : errCode e ≠ 0x0#4 := by cases e <;> decide

/-- Only ContractViolation is reported as 0xF. -/
theorem errCode_eq_contract (e : Err) : errCode e = 0xF#4 ↔ e = .contractViolation := by
  cases e <;> decide

/-- A raised error changes STATUS and the record of a ContractViolation, nothing else (R206). -/
theorem raiseError_eq (s : State) (e : Err) (au : Option Alphabet) :
    raiseError s e au = { s with
      status := statusValue (errCode e) false au
      violated := s.violated || decide (e = .contractViolation) } := rfl

/-- A command that succeeds leaves its staged state with a new STATUS (R33). -/
theorem finish_eq (u : State) (m : Bool) (au : Option Alphabet) :
    finish u m au = { u with status := statusValue errOk m au } := rfl

/-! ## The frames of the commands -/

/-- A command on its read set ends in a next state exactly when every byte of it is written. -/
theorem withBytes_next_iff {s t : State} {r : Option (List Byte)} {body : List Byte → Ending} :
    withBytes s r body = .next t ↔ ∃ bs, r = some bs ∧ t = commit s (body bs) := by
  cases r <;> simp [withBytes, eq_comm]

/-- It faults exactly when one is unwritten, and with no other fault. -/
theorem withBytes_fault_iff {s : State} {r : Option (List Byte)} {body : List Byte → Ending}
    {f : Fault} : withBytes s r body = .fault f ↔ r = none ∧ f = .unwrittenByte := by
  cases r <;> simp [withBytes, eq_comm]

theorem withBytes_not_refused {s : State} {r : Option (List Byte)} {body : List Byte → Ending}
    {x : Refusal} : withBytes s r body ≠ .refused x := by
  cases r <;> simp [withBytes]

@[simp] theorem withBytes_some (s : State) (bs : List Byte) (body : List Byte → Ending) :
    withBytes s (some bs) body = .next (commit s (body bs)) := rfl

theorem textTooLong_iff (s : State) : s.textTooLong = true ↔ 256 < s.txtLen.toNat := by
  simp [State.textTooLong]

/-- Everything a command on the text can end with. -/
theorem withText_next_iff {s t : State} {body : List Byte → Ending} :
    withText s body = .next t ↔
      (256 < s.txtLen.toNat ∧ t = raiseError s .contractViolation none) ∨
        (s.txtLen.toNat ≤ 256 ∧ ∃ x, s.textBytes = some x ∧ t = commit s (body x)) := by
  unfold withText
  split
  · rename_i h
    have h := (textTooLong_iff s).1 h
    simp [h, Nat.not_le.2 h, eq_comm]
  · rename_i h
    have h : ¬ 256 < s.txtLen.toNat := fun h' => h ((textTooLong_iff s).2 h')
    rw [withBytes_next_iff]
    simp [h, Nat.not_lt.1 h]

theorem withText_fault_iff {s : State} {body : List Byte → Ending} {f : Fault} :
    withText s body = .fault f ↔
      s.txtLen.toNat ≤ 256 ∧ s.textBytes = none ∧ f = .unwrittenByte := by
  unfold withText
  split
  · rename_i h
    simp [Nat.not_le.2 ((textTooLong_iff s).1 h)]
  · rename_i h
    have h : s.txtLen.toNat ≤ 256 := Nat.not_lt.1 fun h' => h ((textTooLong_iff s).2 h')
    rw [withBytes_fault_iff]
    simp [h]

/-- A text too long is a ContractViolation, whatever the arrays hold (R202). -/
theorem withText_of_long {s : State} (h : 256 < s.txtLen.toNat) (body : List Byte → Ending) :
    withText s body = .next (raiseError s .contractViolation none) := by
  simp [withText, (textTooLong_iff s).2 h]

/-- A readable text of legal length is handed to the body. -/
theorem withText_of_text {s : State} {x : List Byte} (h : s.txtLen.toNat ≤ 256)
    (hx : s.textBytes = some x) (body : List Byte → Ending) :
    withText s body = .next (commit s (body x)) := by
  have h' : ¬ s.textTooLong = true := fun c => absurd ((textTooLong_iff s).1 c) (by omega)
  simp [withText, h', hx]

/-! ## The commands over their frames -/

/-- What a B64.DEC command makes of a text. -/
def decEnding (s : State) (mode : AlphMode) (t : List Byte) : Ending :=
  match decodeText mode t with
  | .error (e, au) => .raised e au
  | .ok (A, b) => .done (s.stageBuf b) false (some A)

/-- What an ADDR.DEC command makes of a text. -/
def addrEnding (s : State) (mode : AlphMode) (t : List Byte) : Ending :=
  match decodeText mode t with
  | .error (e, au) => .raised e au
  | .ok (A, b) =>
    match parse36 b with
    | .error e => .raised e (some A)
    | .ok p => .done ((s.stageBuf b).stageParsed p) false (some A)

/-- What BUF.PARSE makes of a buffer. -/
def parseEnding (s : State) (b : List Byte) : Ending :=
  match parse36 b with
  | .error e => .raised e none
  | .ok p => .done (s.stageParsed p) false none

theorem b64DecCommand_eq (mode : AlphMode) (s : State) :
    b64DecCommand mode s = withText s (decEnding s mode) := rfl

theorem addrDecCommand_eq (mode : AlphMode) (s : State) :
    addrDecCommand mode s = withText s (addrEnding s mode) := rfl

theorem execBufParse_eq (s : State) : execBufParse s = withBytes s s.bufBytes (parseEnding s) := rfl

/-- `decodeText` selects first, then decodes (R183). -/
theorem decodeText_ok_iff {mode : AlphMode} {t : List Byte} {A : Alphabet} {b : List Byte} :
    decodeText mode t = .ok (A, b) ↔ selectAlphabet mode t = .ok A ∧ b64dec A t = .ok b := by
  unfold decodeText
  cases h : selectAlphabet mode t with
  | error e => simp
  | ok B =>
    cases h' : b64dec B t with
    | error e =>
      simp only [h', reduceCtorEq, Except.ok.injEq, false_iff, not_and]
      rintro rfl
      simp [h']
    | ok c =>
      simp only [h', Except.ok.injEq, Prod.mk.injEq]
      constructor
      · rintro ⟨rfl, rfl⟩
        exact ⟨rfl, h'⟩
      · rintro ⟨rfl, hb⟩
        exact ⟨rfl, Except.ok.inj (h'.symm.trans hb)⟩

theorem decodeText_error_iff {mode : AlphMode} {t : List Byte} {e : Err} {au : Option Alphabet} :
    decodeText mode t = .error (e, au) ↔
      (selectAlphabet mode t = .error e ∧ au = none) ∨
        ∃ A, selectAlphabet mode t = .ok A ∧ b64dec A t = .error e ∧ au = some A := by
  unfold decodeText
  cases h : selectAlphabet mode t with
  | error f => simp [eq_comm]
  | ok B => cases h' : b64dec B t <;> simp [h', eq_comm]

end Sys2Proof.Machine
end

