-- ==== Sys2Proof/Laws/Codec.lean ====
section
/-! SUPPORT. The pure functions of the three datapaths: what each gives, in lemmas of one function. -/

namespace Sys2Proof.Machine

/-! ## Base64 -/

/-- `val` undoes `alpha` (R122). -/
@[simp] theorem charVal_alpha (A : Alphabet) (v : BitVec 6) : charVal A (alpha A v) = some v := by
  cases A <;> revert v <;> decide

/-- No character of an alphabet is `'='` (R122). -/
theorem charVal_padChar (A : Alphabet) : charVal A padChar = none := by cases A <;> decide

@[simp] theorem charVals_nil (A : Alphabet) : charVals A [] = some [] := rfl

theorem charVals_cons_eq_some {A : Alphabet} {c : Byte} {t : List Byte} {vs : List (BitVec 6)} :
    charVals A (c :: t) = some vs ↔
      ∃ v ws, charVal A c = some v ∧ charVals A t = some ws ∧ vs = v :: ws := by
  simp only [charVals]
  cases charVal A c <;> cases charVals A t <;> simp [eq_comm]

theorem length_charVals {A : Alphabet} {t : List Byte} {vs : List (BitVec 6)}
    (h : charVals A t = some vs) : vs.length = t.length := by
  induction t generalizing vs with
  | nil => simp_all
  | cons c t ih =>
    obtain ⟨v, ws, _, hw, rfl⟩ := charVals_cons_eq_some.1 h
    simp [ih hw]

/-- The strict alphabet check passes exactly when every character is in the alphabet (R128 step 2). -/
theorem charVals_isSome_iff {A : Alphabet} {t : List Byte} :
    (charVals A t).isSome = true ↔ ∀ c ∈ t, (charVal A c).isSome = true := by
  induction t with
  | nil => simp
  | cons c t ih =>
    simp only [List.mem_cons, forall_eq_or_imp, ← ih]
    simp only [charVals]
    cases charVal A c <;> cases charVals A t <;> simp

/-- What a successful decode went through (R128). -/
theorem b64decWith_ok_iff {P : PadPolicy} {A : Alphabet} {t b : List Byte} :
    b64decWith P A t = .ok b ↔
      padRefused P t.length (padRun t) = false ∧
        ∃ vs, charVals A (t.take (t.length - padRun t)) = some vs ∧ decodeVals vs = .ok b := by
  unfold b64decWith
  cases padRefused P t.length (padRun t) with
  | true => simp
  | false => cases charVals A (t.take (t.length - padRun t)) <;> simp

theorem decodeVals_ok_iff {vs : List (BitVec 6)} {b : List Byte} :
    decodeVals vs = .ok b ↔
      vs.length % 4 ≠ 1 ∧ assembleBits vs 0 0 = (b, 0) ∧ b.length = 36 := by
  unfold decodeVals
  rcases h : assembleBits vs 0 0 with ⟨out, acc⟩
  by_cases h1 : vs.length % 4 = 1
  · simp [h1]
  · by_cases h2 : acc = 0
    · by_cases h3 : out.length = 36
      · simp only [h1, h2, h3, if_false, ne_eq, not_true_eq_false, Except.ok.injEq, Prod.mk.injEq,
          not_false_eq_true, and_true, true_and]
        constructor
        · rintro rfl
          exact ⟨rfl, h3⟩
        · rintro ⟨rfl, _⟩
          rfl
      · simp only [h1, h2, h3, if_false, ne_eq, not_true_eq_false, not_false_eq_true, if_true,
          reduceCtorEq, Prod.mk.injEq, and_true, true_and, false_iff, not_and]
        rintro rfl
        exact h3
    · simp [h1, h2]

/-- A decode gives 36 bytes or nothing (R128 step 5). -/
theorem length_of_b64decWith {P : PadPolicy} {A : Alphabet} {t b : List Byte}
    (h : b64decWith P A t = .ok b) : b.length = 36 := by
  obtain ⟨_, vs, _, hd⟩ := b64decWith_ok_iff.1 h
  exact (decodeVals_ok_iff.1 hd).2.2

/-- Four values give three bytes and leave no bits (R128 step 4). -/
theorem assembleBits_quad (a b c d : BitVec 6) (vs : List (BitVec 6)) :
    ∃ x y z : Byte, assembleBits (a :: b :: c :: d :: vs) 0 0 =
      (x :: y :: z :: (assembleBits vs 0 0).1, (assembleBits vs 0 0).2) := by
  simp [assembleBits, Nat.mod_one]

/-- The bits a new value leaves are its own low bits. -/
theorem shiftLeft_or_mod (x y : Nat) {n : Nat} (hn : n ≤ 6) : (x <<< 6 ||| y) % 2 ^ n = y % 2 ^ n := by
  have h : (x <<< 6) % 2 ^ n = 0 := by
    rw [Nat.shiftLeft_eq]
    exact Nat.mod_eq_zero_of_dvd (Dvd.dvd.mul_left (Nat.pow_dvd_pow 2 hn) x)
  rw [Nat.or_mod_two_pow, h, Nat.zero_or]

/-- Two last values give one byte and leave the last one's low four bits. -/
theorem assembleBits_pair (a b : BitVec 6) :
    ∃ x : Byte, assembleBits [a, b] 0 0 = ([x], b.toNat % 16) :=
  ⟨_, Prod.ext rfl (shiftLeft_or_mod _ _ (n := 4) (by decide))⟩

/-- Three last values give two bytes and leave the last one's low two bits. -/
theorem assembleBits_triple (a b c : BitVec 6) :
    ∃ x y : Byte, assembleBits [a, b, c] 0 0 = ([x, y], c.toNat % 4) :=
  ⟨_, _, Prod.ext rfl (shiftLeft_or_mod _ _ (n := 2) (by decide))⟩

/-- What guess mode selects, by the sets the text has characters of (R125). -/
theorem selectAlphabet_guess (t : List Byte) :
    selectAlphabet .guess t =
      if t.any (exclusiveTo .urlSafe) && t.any (exclusiveTo .standard) then .error .invalidBase64
      else if t.any (exclusiveTo .urlSafe) then .ok .urlSafe else .ok .standard := rfl

/-- Selection raises InvalidBase64 only (R125). -/
theorem selectAlphabet_error {mode : AlphMode} {t : List Byte} {e : Err}
    (h : selectAlphabet mode t = .error e) : e = .invalidBase64 := by
  cases mode
  · cases h
  · cases h
  · rw [selectAlphabet_guess] at h
    split_ifs at h
    exact (Except.error.inj h).symm

/-- A decode raises InvalidBase64 or InvalidLength (R128). -/
theorem b64dec_error {A : Alphabet} {t : List Byte} {e : Err} (h : b64dec A t = .error e) :
    e = .invalidBase64 ∨ e = .invalidLength := by
  unfold b64dec b64decWith at h
  split at h
  · exact .inl (Except.error.inj h).symm
  · split at h
    · exact .inl (Except.error.inj h).symm
    · unfold decodeVals at h
      split_ifs at h <;> cases h <;> simp

/-- So do the two decoding stages together. -/
theorem decodeText_error {mode : AlphMode} {t : List Byte} {e : Err} {au : Option Alphabet}
    (h : decodeText mode t = .error (e, au)) : e = .invalidBase64 ∨ e = .invalidLength := by
  rcases decodeText_error_iff.1 h with ⟨h, _⟩ | ⟨A, _, h, _⟩
  · exact .inl (selectAlphabet_error h)
  · exact b64dec_error h

/-- How long an encoded text is (R126). -/
theorem length_b64enc (A : Alphabet) : ∀ (n : Nat) (b : List Byte), b.length = 3 * n →
    (b64enc A b).length = 4 * n
  | 0, b, h => by
    rw [List.length_eq_zero_iff.1 (by omega : b.length = 0)]
    rfl
  | n + 1, [], h => by simp at h
  | n + 1, [_], h => by simp at h; omega
  | n + 1, [_, _], h => by simp at h; omega
  | n + 1, x :: y :: z :: rest, h => by
    simp only [b64enc, List.length_cons]
    rw [length_b64enc A n rest (by simp at h; omega)]
    omega

/-! ## Checksum -/

theorem crcShift_xor (c d : BitVec 16) : crcShift (c ^^^ d) = crcShift c ^^^ crcShift d := by
  have comm (x y z : BitVec 16) : x ^^^ (y ^^^ z) = y ^^^ (x ^^^ z) := by
    rw [← BitVec.xor_assoc, BitVec.xor_comm x y, BitVec.xor_assoc]
  unfold crcShift
  rw [BitVec.shiftLeft_xor_distrib, BitVec.getLsbD_xor]
  cases c.getLsbD 15 <;> cases d.getLsbD 15 <;>
    simp [BitVec.xor_assoc, comm 0x1021#16 (d <<< 1), BitVec.xor_comm 0x1021#16 (d <<< 1)]

theorem crcShift8_xor (c d : BitVec 16) : crcShift8 (c ^^^ d) = crcShift8 c ^^^ crcShift8 d := by
  simp only [crcShift8, crcShift_xor]

/-! ## Buffer -/

/-- A built buffer is the 34 checksummed bytes and their checksum (R165). -/
theorem build36_eq (bnc tst : Bool) (wc : Byte) (acct : List Byte) :
    build36 bnc tst wc acct =
      (flagByte bnc tst :: wc :: acct) ++ sumToBytes (crc16 (flagByte bnc tst :: wc :: acct)) := rfl

theorem length_build36 (bnc tst : Bool) (wc : Byte) (acct : List Byte) :
    (build36 bnc tst wc acct).length = acct.length + 4 := by
  simp [build36_eq, sumToBytes]

/-- The flag byte decodes to the flags it encodes, and to no others (R161, R162). -/
theorem flagDecode_ok_iff {f : Byte} {bnc tst : Bool} :
    flagDecode f = .ok (bnc, tst) ↔ f = flagByte bnc tst := by
  unfold flagDecode
  split_ifs with h1 h2 h3 h4 <;> cases bnc <;> cases tst <;> simp_all [flagByte]

/-- A parse raises InvalidFlag or ChecksumMismatch (R166). -/
theorem parse36_error {b : List Byte} {e : Err} (h : parse36 b = .error e) :
    e = .invalidFlag ∨ e = .checksumMismatch := by
  unfold parse36 at h
  split at h
  · rename_i hf
    unfold flagDecode at hf
    split_ifs at hf
    exact .inl ((Except.error.inj h).symm.trans (Except.error.inj hf).symm)
  · split_ifs at h
    exact .inr (Except.error.inj h).symm

/-- What a successful parse went through (R166). -/
theorem parse36_ok_iff {b : List Byte} {p : Parsed} :
    parse36 b = .ok p ↔
      flagDecode (b.getD 0 0#8) = .ok (p.bnc, p.tst) ∧ crc16 (b.take 34) = storedSum b ∧
        p.wc = b.getD 1 0#8 ∧ p.acct = (b.drop 2).take 32 := by
  unfold parse36
  obtain ⟨w, a, x, y⟩ := p
  cases h : flagDecode (b.getD 0 0#8) with
  | error e => simp
  | ok q =>
    obtain ⟨bnc, tst⟩ := q
    by_cases hc : crc16 (b.take 34) = storedSum b
    · simp only [Config.sumSize, Config.acctSize, hc, ne_eq, not_true_eq_false, if_false,
        Except.ok.injEq, Parsed.mk.injEq, Prod.mk.injEq, true_and]
      constructor
      · rintro ⟨rfl, rfl, rfl, rfl⟩
        exact ⟨⟨rfl, rfl⟩, rfl, rfl⟩
      · rintro ⟨⟨rfl, rfl⟩, rfl, rfl⟩
        exact ⟨rfl, rfl, rfl, rfl⟩
    · simp [hc]

end Sys2Proof.Machine
end

