-- ==== Sys2Proof/Laws/Exec.lean ====
section
/-! SUPPORT. Every command as one shape: the array bytes it reads, and the ending it makes of them. What
`exec` can do is said once over that shape. -/

namespace Sys2Proof.Machine

/-- The array bytes a command reads (R75). -/
def inputOf : Instr → State → Option (List Byte)
  | .crcCompute, s | .crcVerify, s => s.sumBytes
  | .b64EncStd, s | .b64EncUrl, s | .bufParse, s => s.bufBytes
  | .b64DecStd, s | .b64DecUrl, s | .b64DecGuess, s
  | .addrDecStd, s | .addrDecUrl, s | .addrDecGuess, s => s.textBytes
  | .bufBuild, s | .addrEncStd, s | .addrEncUrl, s => s.acctBytes

/-- What an ADDR.ENC command makes of the account id. -/
def addrEncEnding (s : State) (A : Alphabet) (a : List Byte) : Ending :=
  .done ((s.stageBuf (build36 s.bnc s.tst s.wc a)).stageText
    (b64enc A (build36 s.bnc s.tst s.wc a))) false (some A)

/-- What a command makes of the bytes it reads. -/
def endingOf : Instr → State → List Byte → Ending
  | .crcCompute, s, b => .done (s.setCrc (crc16 b)) false none
  | .crcVerify, s, b => .done s (crc16 b = s.crc) none
  | .b64EncStd, s, b => .done (s.stageText (b64enc .standard b)) false (some .standard)
  | .b64EncUrl, s, b => .done (s.stageText (b64enc .urlSafe b)) false (some .urlSafe)
  | .b64DecStd, s, t => decEnding s .standard t
  | .b64DecUrl, s, t => decEnding s .urlSafe t
  | .b64DecGuess, s, t => decEnding s .guess t
  | .bufBuild, s, a => .done (s.stageBuf (build36 s.bnc s.tst s.wc a)) false none
  | .bufParse, s, b => parseEnding s b
  | .addrEncStd, s, a => addrEncEnding s .standard a
  | .addrEncUrl, s, a => addrEncEnding s .urlSafe a
  | .addrDecStd, s, t => addrEnding s .standard t
  | .addrDecUrl, s, t => addrEnding s .urlSafe t
  | .addrDecGuess, s, t => addrEnding s .guess t

/-- Every command is its ending over its input; a text command checks TXT_LEN first. -/
theorem exec_eq (i : Instr) (s : State) :
    exec i s = if decodesText i = true then withText s (endingOf i s)
      else withBytes s (inputOf i s) (endingOf i s) := by
  cases i <;> rfl

theorem inputOf_of_decodesText {i : Instr} (h : decodesText i = true) (s : State) :
    inputOf i s = s.textBytes := by
  cases i <;> first | rfl | cases h

/-- Everything a command can end with in a next state. -/
theorem exec_next_iff {i : Instr} {s t : State} :
    exec i s = .next t ↔
      (decodesText i = true ∧ 256 < s.txtLen.toNat ∧ t = raiseError s .contractViolation none) ∨
        ((decodesText i = true → s.txtLen.toNat ≤ 256) ∧
          ∃ x, inputOf i s = some x ∧ t = commit s (endingOf i s x)) := by
  rw [exec_eq]
  by_cases h : decodesText i = true
  · rw [if_pos h, withText_next_iff, inputOf_of_decodesText h]
    simp [h]
  · rw [if_neg h, withBytes_next_iff]
    simp [h]

/-- A command faults exactly when a byte of its input is unwritten, after the check of TXT_LEN. -/
theorem exec_fault_iff {i : Instr} {s : State} {f : Fault} :
    exec i s = .fault f ↔
      (decodesText i = true → s.txtLen.toNat ≤ 256) ∧ inputOf i s = none ∧ f = .unwrittenByte := by
  rw [exec_eq]
  by_cases h : decodesText i = true
  · rw [if_pos h, withText_fault_iff, inputOf_of_decodesText h]
    simp [h]
  · rw [if_neg h, withBytes_fault_iff]
    simp [h]

/-- No command is refused. -/
theorem exec_not_refused (i : Instr) (s : State) (r : Refusal) : exec i s ≠ .refused r := by
  rw [exec_eq]
  split
  · unfold withText
    split
    · simp
    · exact withBytes_not_refused
  · exact withBytes_not_refused

/-- A command on a text of legal length and a written input ends with its ending. -/
theorem exec_of_input {i : Instr} {s : State} {x : List Byte}
    (hl : decodesText i = true → s.txtLen.toNat ≤ 256) (hx : inputOf i s = some x) :
    exec i s = .next (commit s (endingOf i s x)) :=
  exec_next_iff.2 (.inr ⟨hl, x, hx, rfl⟩)

/-- How many bytes each command reads. -/
theorem length_of_inputOf {i : Instr} {s : State} {x : List Byte} (h : inputOf i s = some x) :
    x.length = (match i with
      | .crcCompute | .crcVerify => 34
      | .b64EncStd | .b64EncUrl | .bufParse => 36
      | .b64DecStd | .b64DecUrl | .b64DecGuess | .addrDecStd | .addrDecUrl | .addrDecGuess =>
        s.txtLen.toNat
      | .bufBuild | .addrEncStd | .addrEncUrl => 32) := by
  cases i <;> exact Memory.length_readBytes h

/-- An ending that raises is one of a text command or of BUF.PARSE. -/
theorem endingOf_raised {i : Instr} {s : State} {x : List Byte} {e : Err} {au : Option Alphabet}
    (h : endingOf i s x = .raised e au) : decodesText i = true ∨ i = .bufParse := by
  cases i <;> first | exact .inl rfl | exact .inr rfl | cases h

end Sys2Proof.Machine
end

