-- ==== Sys2Proof/Laws/Bus.lean ====
section
/-! SUPPORT. What the bus primitives, the events and a step can do, said once. -/

namespace Sys2Proof.Machine

/-! ## The address map -/

/-- The array offsets (R52). -/
theorem isArrayRegion_iff (off : Nat) : isArrayRegion (region off) = true ↔
    (0x020 ≤ off ∧ off < 0x040) ∨ (0x040 ≤ off ∧ off < 0x064) ∨ (0x100 ≤ off ∧ off < 0x200) := by
  unfold region
  split_ifs <;> simp [isArrayRegion] <;> omega

/-- The reserved offsets of the window, and everything outside it (R52). -/
theorem region_eq_reserved_iff {off : Nat} : region off = .reserved ↔
    ¬ (off < 0x018 ∨ (0x020 ≤ off ∧ off < 0x040) ∨ (0x040 ≤ off ∧ off < 0x064) ∨
      (0x100 ≤ off ∧ off < 0x200)) := by
  unfold region
  split_ifs <;> simp <;> omega

theorem region_acct {off : Nat} (h : 0x020 ≤ off) (h' : off < 0x040) : region off = .acct := by
  unfold region
  simp only [show ¬ off < 4 by omega, show ¬ off < 8 by omega, show ¬ off < 12 by omega,
    show ¬ off < 16 by omega, show ¬ off < 20 by omega, show ¬ off < 24 by omega,
    show ¬ off < 32 by omega, h', if_true, if_false]

theorem region_buf {off : Nat} (h : 0x040 ≤ off) (h' : off < 0x064) : region off = .buf := by
  unfold region
  simp only [show ¬ off < 4 by omega, show ¬ off < 8 by omega, show ¬ off < 12 by omega,
    show ¬ off < 16 by omega, show ¬ off < 20 by omega, show ¬ off < 24 by omega,
    show ¬ off < 32 by omega, show ¬ off < 64 by omega, h', if_true, if_false]

theorem region_txt {off : Nat} (h : 0x100 ≤ off) (h' : off < 0x200) : region off = .txt := by
  unfold region
  simp only [show ¬ off < 4 by omega, show ¬ off < 8 by omega, show ¬ off < 12 by omega,
    show ¬ off < 16 by omega, show ¬ off < 20 by omega, show ¬ off < 24 by omega,
    show ¬ off < 32 by omega, show ¬ off < 64 by omega, show ¬ off < 100 by omega,
    show ¬ off < 256 by omega, h', if_true, if_false]

/-- An aligned word of an array lies in one array (R55). -/
theorem region_add_of_aligned {off k : Nat} (h4 : off % 4 = 0) (hk : k < 4)
    (h : isArrayRegion (region off) = true) : region (off + k) = region off := by
  rw [isArrayRegion_iff] at h
  rcases h with h | h | h
  · rw [region_acct h.1 h.2, region_acct (by omega) (by omega)]
  · rw [region_buf h.1 h.2, region_buf (by omega) (by omega)]
  · rw [region_txt h.1 h.2, region_txt (by omega) (by omega)]

/-- A 4-byte access is placed exactly when it is aligned (R55). -/
theorem wordPlaced_iff (off : Nat) : wordPlaced off = true ↔ off % 4 = 0 := by
  unfold wordPlaced
  by_cases h : off % 4 = 0
  · by_cases ha : isArrayRegion (region off) = true
    · simp [h, ha, region_add_of_aligned h (by decide : 3 < 4) ha]
    · simp [h, ha]
  · simp [h]

/-! ## Accesses -/

/-- `acknowledge` answers a next state and passes every stop on. -/
theorem acknowledge_next_iff {o : Host.Outcome State Fault Refusal} {t : State} :
    acknowledge o = .next t ↔ ∃ u, o = .next u ∧ t = u.addAnswer .written := by
  cases o <;> simp [acknowledge, eq_comm]

/-- Everything a 1-byte read can do. -/
theorem busRead8_next_iff {off : Nat} {s t : State} :
    busRead8 off s = .next t ↔
      isArrayRegion (region off) = true ∧
        ∃ b, s.mem.read off = some b ∧ t = s.addAnswer (.byte b) := by
  unfold busRead8
  split
  · rename_i h
    cases s.mem.read off <;> simp [answerWith, h, eq_comm]
  · rename_i h
    simp [h]

/-- Everything a 1-byte write can do. -/
theorem busWrite8_next_iff {off : Nat} {b : Byte} {s t : State} :
    busWrite8 off b s = .next t ↔
      isArrayRegion (region off) = true ∧ t = (s.setMem (s.mem.write off b)).addAnswer .written := by
  unfold busWrite8
  split
  · rename_i h
    simp [acknowledge, h, eq_comm]
  · rename_i h
    simp [h]

/-- Whatever a 4-byte read answers, it only adds the answer. -/
theorem busRead32_next {off : Nat} {s t : State} (h : busRead32 off s = .next t) :
    ∃ v, t = s.addAnswer (.word v) := by
  unfold busRead32 at h
  split at h
  · split at h <;> first
      | exact ⟨_, (Host.Outcome.next.inj h).symm⟩
      | (split at h <;> first | exact ⟨_, (Host.Outcome.next.inj h).symm⟩ | cases h)
      | cases h
  · cases h

/-- Everything a 4-byte write can do: it runs a command, or stores one register, or four array bytes. -/
theorem busWrite32_next {off : Nat} {v : Word} {s t : State} (h : busWrite32 off v s = .next t) :
    wordPlaced off = true ∧
      ((region off = .cmd ∧ ∃ u, runCommand v s = .next u ∧ t = u.addAnswer .written) ∨
        (region off = .flags ∧ t = (s.setFlags (v.setWidth 2)).addAnswer .written) ∨
        (region off = .wc ∧ t = (s.setWc (v.setWidth 8)).addAnswer .written) ∨
        (region off = .crc ∧ t = (s.setCrc (v.setWidth 16)).addAnswer .written) ∨
        (region off = .txtLen ∧ t = (s.setTxtLen (v.setWidth 9)).addAnswer .written) ∨
        (isArrayRegion (region off) = true ∧
          t = (s.setMem (s.mem.writeBytes off (splitLanes v))).addAnswer .written)) := by
  unfold busWrite32 at h
  split at h
  · rename_i hp
    refine ⟨hp, ?_⟩
    have written {u : State} (hu : acknowledge (.next u) = .next t) : t = u.addAnswer .written :=
      (Host.Outcome.next.inj hu).symm
    cases hr : region off <;> rw [hr] at h
    case cmd => exact .inl ⟨rfl, acknowledge_next_iff.1 h⟩
    case status => cases h
    case flags => exact .inr (.inl ⟨rfl, written h⟩)
    case wc => exact .inr (.inr (.inl ⟨rfl, written h⟩))
    case crc => exact .inr (.inr (.inr (.inl ⟨rfl, written h⟩)))
    case txtLen => exact .inr (.inr (.inr (.inr (.inl ⟨rfl, written h⟩))))
    case reserved => cases h
    all_goals exact .inr (.inr (.inr (.inr (.inr ⟨rfl, written h⟩))))
  · cases h

/-! ## Commands and steps -/

/-- A word at CMD runs its command, or raises ContractViolation. -/
theorem runCommand_of_decode {w : Word} {i : Instr} (h : decode w = .ok i) (s : State) :
    runCommand w s = exec i s := by
  simp [runCommand, h]

theorem runCommand_of_illegal {w : Word} {r : IllegalWord} (h : decode w = .error r) (s : State) :
    runCommand w s = .next (raiseError s .contractViolation none) := by
  simp [runCommand, h]

/-- A step with no event holds the state. -/
theorem step_of_no_event {s : State} (h : s.port = []) : step s = .next s := by
  simp [step, nextEvent, h]

/-- A step takes the next event. -/
theorem step_of_event {s : State} {e : HostEvent} {rest : List HostEvent} (h : s.port = e :: rest) :
    step s = deliver e (s.setPort rest) := by
  simp [step, nextEvent, h]

/-- Everything a step can do. -/
theorem step_next {s t : State} (h : step s = .next t) :
    (s.port = [] ∧ t = s) ∨
      ∃ e rest, s.port = e :: rest ∧
        ((∃ a, e = .access a ∧
            ((placeOffset (accessPlace a) = none ∧ t = s.setPort rest) ∨
              ∃ off, placeOffset (accessPlace a) = some off ∧
                accessAt a off (s.setPort rest) = .next t)) ∨
          ((e = .reset ∨ ∃ a, e = .resetDuring a) ∧ t = (s.setPort rest).pulseReset)) := by
  cases hp : s.port with
  | nil =>
    rw [step_of_no_event hp] at h
    exact .inl ⟨rfl, (Host.Outcome.next.inj h).symm⟩
  | cons e rest =>
    rw [step_of_event hp] at h
    refine .inr ⟨e, rest, rfl, ?_⟩
    cases e with
    | access a =>
      refine .inl ⟨a, rfl, ?_⟩
      simp only [deliver, busAccess] at h
      cases hq : placeOffset (accessPlace a) with
      | none =>
        rw [hq] at h
        exact .inl ⟨rfl, (Host.Outcome.next.inj h).symm⟩
      | some off =>
        rw [hq] at h
        exact .inr ⟨off, rfl, h⟩
    | reset => exact .inr ⟨.inl rfl, (Host.Outcome.next.inj h).symm⟩
    | resetDuring a => exact .inr ⟨.inr ⟨a, rfl⟩, (Host.Outcome.next.inj h).symm⟩

end Sys2Proof.Machine
end

