-- ==== Sys2Proof/Laws/PerInstr.lean ====
section
/-! SUPPORT. A family of statements about each command as syntax: its word's fields (R71 to R73). -/

namespace Sys2Proof.Laws.WordFields

/-- The command is well formed, and its word has RSV = 0, a mode of R73 and a row of its own in the
opcode map (R71 to R74). -/
def Statement (i : Instr) : Prop :=
  i.wf = true ∧ wordRsv (encode i) = 0#26 ∧ wordAlph (encode i) ≠ 0b11#2 ∧
    (encode i, i) ∈ Machine.commandTable

theorem crcCompute : Statement .crcCompute := by unfold Statement; decide
theorem crcVerify : Statement .crcVerify := by unfold Statement; decide
theorem b64EncStd : Statement .b64EncStd := by unfold Statement; decide
theorem b64EncUrl : Statement .b64EncUrl := by unfold Statement; decide
theorem b64DecStd : Statement .b64DecStd := by unfold Statement; decide
theorem b64DecUrl : Statement .b64DecUrl := by unfold Statement; decide
theorem b64DecGuess : Statement .b64DecGuess := by unfold Statement; decide
theorem bufBuild : Statement .bufBuild := by unfold Statement; decide
theorem bufParse : Statement .bufParse := by unfold Statement; decide
theorem addrEncStd : Statement .addrEncStd := by unfold Statement; decide
theorem addrEncUrl : Statement .addrEncUrl := by unfold Statement; decide
theorem addrDecStd : Statement .addrDecStd := by unfold Statement; decide
theorem addrDecUrl : Statement .addrDecUrl := by unfold Statement; decide
theorem addrDecGuess : Statement .addrDecGuess := by unfold Statement; decide

end Sys2Proof.Laws.WordFields
end

