-- ==== Sys2Proof/Tests/Slice0.lean ====
section
/-! SUPPORT. The model's own tests. Expected values come from spec/95_test_vectors.md (the section is
named beside each) or from the encoding tables of spec/30_encoding.md; `witness_…` shows that the
hypotheses of the obligation of that name can be met together. -/

-- One theorem at a time: the kernel evaluates each, and many at once need a thread (and a stack) each.
set_option Elab.async false

namespace Sys2Proof.Machine.Tests

/-! ## Helpers -/

/-- The ASCII codes of a text. -/
def ascii (s : String) : List Byte := s.toList.map fun c => BitVec.ofNat 8 c.toNat

/-- README ACCT: 0e977977 08411c29 a3cb1f3f 810ef4f8 3f41d990 838f7f93 ce7082c4 ff9aa026. -/
def acct : List Byte :=
  [
    0x0E, 0x97, 0x79, 0x77, 0x08, 0x41, 0x1C, 0x29, 0xA3, 0xCB, 0x1F, 0x3F, 0x81, 0x0E,
    0xF4, 0xF8, 0x3F, 0x41, 0xD9, 0x90, 0x83, 0x8F, 0x7F, 0x93, 0xCE, 0x70, 0x82, 0xC4,
    0xFF, 0x9A, 0xA0, 0x26]

/-- README BUF: 11 00, README ACCT, e4 76. -/
def buf : List Byte :=
  [
    0x11, 0x00, 0x0E, 0x97, 0x79, 0x77, 0x08, 0x41, 0x1C, 0x29, 0xA3, 0xCB, 0x1F, 0x3F,
    0x81, 0x0E, 0xF4, 0xF8, 0x3F, 0x41, 0xD9, 0x90, 0x83, 0x8F, 0x7F, 0x93, 0xCE, 0x70,
    0x82, 0xC4, 0xFF, 0x9A, 0xA0, 0x26, 0xE4, 0x76]

/-- The README text, Standard form (S): EQAOl3l3CEEcKaPLHz+BDvT4P0HZkIOPf5POcILE/5qgJuR2. -/
def textS : List Byte :=
  [
    0x45, 0x51, 0x41, 0x4F, 0x6C, 0x33, 0x6C, 0x33, 0x43, 0x45, 0x45, 0x63, 0x4B, 0x61,
    0x50, 0x4C, 0x48, 0x7A, 0x2B, 0x42, 0x44, 0x76, 0x54, 0x34, 0x50, 0x30, 0x48, 0x5A,
    0x6B, 0x49, 0x4F, 0x50, 0x66, 0x35, 0x50, 0x4F, 0x63, 0x49, 0x4C, 0x45, 0x2F, 0x35,
    0x71, 0x67, 0x4A, 0x75, 0x52, 0x32]

/-- The README text, URL-safe form (U): EQAOl3l3CEEcKaPLHz-BDvT4P0HZkIOPf5POcILE_5qgJuR2. -/
def textU : List Byte :=
  [
    0x45, 0x51, 0x41, 0x4F, 0x6C, 0x33, 0x6C, 0x33, 0x43, 0x45, 0x45, 0x63, 0x4B, 0x61,
    0x50, 0x4C, 0x48, 0x7A, 0x2D, 0x42, 0x44, 0x76, 0x54, 0x34, 0x50, 0x30, 0x48, 0x5A,
    0x6B, 0x49, 0x4F, 0x50, 0x66, 0x35, 0x50, 0x4F, 0x63, 0x49, 0x4C, 0x45, 0x5F, 0x35,
    0x71, 0x67, 0x4A, 0x75, 0x52, 0x32]

def withAcct (a : List Byte) : State := { State.reset with mem := Memory.writeBytes [] 0x020 a }
def withBuf (b : List Byte) : State := { State.reset with mem := Memory.writeBytes [] 0x040 b }
def withTxt (t : List Byte) : State :=
  { State.reset with txtLen := BitVec.ofNat 9 t.length, mem := Memory.writeBytes [] 0x100 t }

/-- The outcome is a next state that passes the check. -/
def endsIn (o : Host.Outcome State Fault Refusal) (p : State → Bool) : Bool :=
  match o with
  | .next t => p t
  | .fault _ => false
  | .refused _ => false

/-- The outcome is this fault. -/
def faultsWith (o : Host.Outcome State Fault Refusal) (f : Fault) : Bool :=
  match o with
  | .next _ => false
  | .fault g => decide (g = f)
  | .refused _ => false

theorem next_of_endsIn {o : Host.Outcome State Fault Refusal} {p : State → Bool}
    (h : endsIn o p = true) : ∃ t, o = .next t ∧ p t = true := by
  cases o with
  | next t => exact ⟨t, rfl, h⟩
  | fault f => cases h
  | refused r => cases h

theorem fault_of_faultsWith {o : Host.Outcome State Fault Refusal} {f : Fault}
    (h : faultsWith o f = true) : o = .fault f := by
  cases o with
  | next t => cases h
  | fault g => simpa [faultsWith] using h
  | refused r => cases h

/-! ## Well-formedness -/

theorem test_wf_commands : ∀ i ∈ allInstrs, i.wf = true := by decide
theorem test_wf_offset_outside : ScriptLine.wf (.wr32 0x200 0#32) = false := by decide
theorem test_wf_offset_last : ScriptLine.wf (.rd8 0x1FF) = true := by decide
theorem test_wf_wrwc_too_big : ScriptLine.wf (.wrwc 128) = false := by decide
theorem test_wf_wrwc_too_small : ScriptLine.wf (.wrwc (-129)) = false := by decide
theorem test_wf_wracct_short : ScriptLine.wf (.wracct (List.replicate 31 0#8)) = false := by decide
theorem test_wf_wrbuf_long : ScriptLine.wf (.wrbuf (List.replicate 37 0#8)) = false := by decide
theorem test_wf_wrtxt_long : ScriptLine.wf (.wrtxt (List.replicate 257 0#8)) = false := by
  decide +kernel

/-! ## Decoding: each word written out from R71 to R73, RSV ALPH OP -/

theorem test_decode_crcCompute :
    decode 0b00000000000000000000000000_00_0001#32 = .ok .crcCompute := by decide
theorem test_decode_crcVerify :
    decode 0b00000000000000000000000000_00_0010#32 = .ok .crcVerify := by decide
theorem test_decode_b64EncStd :
    decode 0b00000000000000000000000000_00_0011#32 = .ok .b64EncStd := by decide
theorem test_decode_b64EncUrl :
    decode 0b00000000000000000000000000_01_0011#32 = .ok .b64EncUrl := by decide
theorem test_decode_b64DecStd :
    decode 0b00000000000000000000000000_00_0100#32 = .ok .b64DecStd := by decide
theorem test_decode_b64DecUrl :
    decode 0b00000000000000000000000000_01_0100#32 = .ok .b64DecUrl := by decide
theorem test_decode_b64DecGuess :
    decode 0b00000000000000000000000000_10_0100#32 = .ok .b64DecGuess := by decide
theorem test_decode_bufBuild :
    decode 0b00000000000000000000000000_00_0101#32 = .ok .bufBuild := by decide
theorem test_decode_bufParse :
    decode 0b00000000000000000000000000_00_0110#32 = .ok .bufParse := by decide
theorem test_decode_addrEncStd :
    decode 0b00000000000000000000000000_00_0111#32 = .ok .addrEncStd := by decide
theorem test_decode_addrEncUrl :
    decode 0b00000000000000000000000000_01_0111#32 = .ok .addrEncUrl := by decide
theorem test_decode_addrDecStd :
    decode 0b00000000000000000000000000_00_1000#32 = .ok .addrDecStd := by decide
theorem test_decode_addrDecUrl :
    decode 0b00000000000000000000000000_01_1000#32 = .ok .addrDecUrl := by decide
theorem test_decode_addrDecGuess :
    decode 0b00000000000000000000000000_10_1000#32 = .ok .addrDecGuess := by decide

/-- Section 5.1: the illegal words. -/
theorem test_illegal_words :
    decode 0x00000000#32 = .error .reservedOp ∧ decode 0x00000009#32 = .error .reservedOp ∧
      decode 0x0000000F#32 = .error .reservedOp ∧ decode 0x00000034#32 = .error .reservedAlph ∧
      decode 0x00000011#32 = .error .unusedAlph ∧ decode 0x00000023#32 = .error .guessEncode ∧
      decode 0x00000027#32 = .error .guessEncode ∧ decode 0x00000040#32 = .error .reservedBits ∧
      decode 0x00000104#32 = .error .reservedBits ∧ decode 0x80000001#32 = .error .reservedBits := by
  decide

theorem test_illegal_word_status :
    endsIn (runCommand 0x80000001#32 State.reset) (fun t => t.status = 0x8F#8 ∧ t.violated) = true := by
  decide

theorem test_decodeTableWord : decodeTableWord 32 0x28 = some .addrDecGuess ∧
    decodeTableWord 32 0x68 = none := by decide

/-! ## One step (5.4): the first command after reset -/

theorem test_first_command_guess :
    endsIn (step (State.reset.withFetchWord 32 0x24)) (fun t => t.status = 0xA2#8) = true := by decide
theorem test_first_command_unwritten :
    faultsWith (step (State.reset.withFetchWord 32 0x01)) .unwrittenByte = true := by decide

/-! ## Checksum Engine (3.1, 3.2) -/

theorem test_crc16_check :
    crc16 [0x31#8, 0x32#8, 0x33#8, 0x34#8, 0x35#8, 0x36#8, 0x37#8, 0x38#8, 0x39#8] = 0x31C3#16 := by decide +kernel
theorem test_crcCompute_readme :
    endsIn (exec .crcCompute (withBuf buf)) (fun t => t.crc = 0xE476#16 ∧ t.status = 0x80#8) = true := by
  decide +kernel
theorem test_crcVerify_agrees :
    endsIn (exec .crcVerify { withBuf buf with crc := 0xE476#16 }) (fun t => t.status = 0x90#8) = true := by
  decide +kernel
theorem test_crcVerify_differs :
    endsIn (exec .crcVerify { withBuf buf with crc := 0xE477#16 }) (fun t => t.status = 0x80#8) = true := by
  decide +kernel

/-! ## Base64 Codec (2.1, 2.2) -/

theorem test_b64EncStd_readme :
    endsIn (exec .b64EncStd (withBuf buf)) (fun t =>
      t.mem.readBytes 0x100 48 = some textS ∧ t.txtLen = 48#9 ∧ t.status = 0xA0#8) = true := by
  decide +kernel
theorem test_b64EncUrl_readme :
    endsIn (exec .b64EncUrl (withBuf buf)) (fun t =>
      t.mem.readBytes 0x100 48 = some textU ∧ t.txtLen = 48#9 ∧ t.status = 0xC0#8) = true := by
  decide +kernel
theorem test_b64enc_all_values :
    b64enc .urlSafe [
    0x00, 0x10, 0x83, 0x10, 0x51, 0x87, 0x20, 0x92, 0x8B, 0x30, 0xD3, 0x8F, 0x41, 0x14,
    0x93, 0x51, 0x55, 0x97, 0x61, 0x96, 0x9B, 0x71, 0xD7, 0x9F, 0x82, 0x18, 0xA3, 0x92,
    0x59, 0xA7, 0xA2, 0x9A, 0xAB, 0xB2, 0xDB, 0xAF, 0xC3, 0x1C, 0xB3, 0xD3, 0x5D, 0xB7,
    0xE3, 0x9E, 0xBB, 0xF3, 0xDF, 0xBF] =
      ascii "ABCDEFGHIJKLMNOPQRSTUVWXYZabcdefghijklmnopqrstuvwxyz0123456789-_" := by decide +kernel
theorem test_b64DecStd_readme :
    endsIn (exec .b64DecStd (withTxt textS)) (fun t =>
      t.mem.readBytes 0x040 36 = some buf ∧ t.status = 0xA0#8) = true := by decide +kernel
theorem test_b64DecStd_rejects_url :
    endsIn (exec .b64DecStd (withTxt textU)) (fun t => t.status = 0xA1#8) = true := by decide +kernel
theorem test_b64DecUrl_readme :
    endsIn (exec .b64DecUrl (withTxt textU)) (fun t =>
      t.mem.readBytes 0x040 36 = some buf ∧ t.status = 0xC0#8) = true := by decide +kernel
theorem test_b64DecUrl_wrong_length :
    endsIn (exec .b64DecUrl (withTxt (List.replicate 44 0x41#8))) (fun t => t.status = 0xC2#8) = true := by
  decide +kernel
theorem test_b64DecGuess_url :
    endsIn (exec .b64DecGuess (withTxt textU)) (fun t => t.status = 0xC0#8) = true := by decide +kernel
theorem test_b64DecGuess_mixed :
    endsIn (exec .b64DecGuess (withTxt (textS.set 40 0x2D#8))) (fun t => t.status = 0x81#8) = true := by
  decide +kernel

/-- Section 2.3: the policy-dependent rows. -/
theorem test_padding_rows :
    b64decWith .acceptCanonical .standard (List.replicate 47 0x41#8) = .error .invalidLength ∧
      b64decWith .requireCanonical .standard (List.replicate 47 0x41#8) = .error .invalidBase64 ∧
      b64decWith .reject .standard (List.replicate 46 0x41#8 ++ [0x3D#8, 0x3D#8])
        = .error .invalidBase64 ∧
      b64decWith .requireCanonical .standard (List.replicate 46 0x41#8 ++ [0x3D#8, 0x3D#8])
        = .error .invalidLength := by decide +kernel

/-- Section 2.3: 46 × 'A' then 'B' (47) has non-zero leftover bits, judged before the length; 50 × 'A'. -/
theorem test_leftover_rows :
    (∀ P ∈ [PadPolicy.reject, .acceptCanonical, .requireCanonical],
        b64decWith P .standard (List.replicate 46 0x41#8 ++ [0x42#8]) = .error .invalidBase64) ∧
      b64decWith .reject .standard (List.replicate 50 0x41#8) = .error .invalidLength ∧
      b64decWith .requireCanonical .standard (List.replicate 50 0x41#8) = .error .invalidBase64 := by
  decide +kernel

/-! ## Address Buffer Builder (3.3) -/

theorem test_bufBuild_ones :
    endsIn (exec .bufBuild { withAcct (List.replicate 32 0xFF#8) with flags := 2#2, wc := 0xFF#8 })
      (fun t => t.mem.readBytes 0x040 36 =
        some ([0xD1#8, 0xFF#8] ++ List.replicate 32 0xFF#8 ++ [0x52#8, 0xEF#8])
        ∧ t.status = 0x80#8 ∧ t.crc = 0#16) = true := by decide +kernel
theorem test_bufParse_readme :
    endsIn (exec .bufParse { withBuf buf with flags := 2#2, wc := 5#8 }) (fun t =>
      t.mem.readBytes 0x020 32 = some acct ∧ t.wc = 0#8 ∧ t.flags = 1#2 ∧ t.status = 0x80#8) = true := by
  decide +kernel
theorem test_bufParse_errors :
    endsIn (exec .bufParse (withBuf (buf.set 35 0x77#8))) (fun t => t.status = 0x84#8) = true ∧
      endsIn (exec .bufParse (withBuf ((buf.set 35 0x77#8).set 0 0#8))) (fun t => t.status = 0x83#8)
        = true := by decide +kernel

/-! ## Address pipelines (2.2, 4.1) -/

theorem test_addrEncStd_readme :
    endsIn (exec .addrEncStd (withAcct acct)) (fun t =>
      t.mem.readBytes 0x100 48 = some textS ∧ t.mem.readBytes 0x040 36 = some buf
        ∧ t.txtLen = 48#9 ∧ t.status = 0xA0#8) = true := by decide +kernel
theorem test_addrEncUrl_testnet :
    endsIn (exec .addrEncUrl { withAcct acct with flags := 3#2, wc := 0x80#8 }) (fun t =>
      t.mem.readBytes 0x100 4 = some [0x6B#8, 0x59#8, 0x41#8, 0x4F#8]  -- kYAO
        ∧ t.mem.readBytes 0x12C 4 = some [0x4A#8, 0x70#8, 0x6E#8, 0x2D#8]  -- Jpn-
        ∧ t.status = 0xC0#8) = true := by
  decide +kernel
theorem test_addrDecStd_readme :
    endsIn (exec .addrDecStd (withTxt textS)) (fun t =>
      t.mem.readBytes 0x020 32 = some acct ∧ t.wc = 0#8 ∧ t.flags = 1#2 ∧ t.status = 0xA0#8) = true := by
  decide +kernel
theorem test_addrDecStd_tampered :
    endsIn (exec .addrDecStd (withTxt (textS.set 0 0x55#8))) (fun t =>
      t.status = 0xA4#8 ∧ t.mem.read 0x040 = none) = true := by decide +kernel
theorem test_addrDecUrl_readme :
    endsIn (exec .addrDecUrl (withTxt textU)) (fun t =>
      t.mem.readBytes 0x040 36 = some buf ∧ t.status = 0xC0#8) = true := by decide +kernel
theorem test_addrDecUrl_rejects_std :
    endsIn (exec .addrDecUrl (withTxt textS)) (fun t => t.status = 0xC1#8) = true := by decide +kernel
theorem test_addrDecGuess_flag :
    endsIn (exec .addrDecGuess (withTxt ((textS.set 0 0x41#8).set 1 0x41#8)))
      (fun t => t.status = 0xA3#8) = true := by decide +kernel
theorem test_addrDecGuess_too_long :
    endsIn (exec .addrDecGuess { State.reset with txtLen := 257#9 })
      (fun t => t.status = 0x8F#8 ∧ t.violated) = true := by decide

/-! ## Bus (5.3, 3.2) -/

theorem test_read_buf_word :
    endsIn (busRead32 0x040 (withBuf buf)) (fun t => t.answers = [.word 0x970E0011#32]) = true := by
  decide +kernel
theorem test_register_reserved_bits :
    endsIn (busWrite32 0x010 0xABCD1234#32 State.reset) (fun t =>
      endsIn (busRead32 0x010 t) fun u => u.answers.head? = some (.word 0x00001234#32)) = true := by decide
theorem test_bus_errors :
    faultsWith (busWrite32 0x004 0#32 State.reset) .busError ∧
      faultsWith (busRead8 0x008 State.reset) .busError ∧
      faultsWith (busRead32 0x00A State.reset) .busError ∧
      faultsWith (busRead32 0x018 State.reset) .busError ∧
      faultsWith (busRead8 0x064 State.reset) .busError ∧
      faultsWith (busRead32 0x041 (withBuf buf)) .busError ∧
      faultsWith (busRead8 0x020 State.reset) .unwrittenByte := by decide

/-! ## Witnesses: the hypotheses of the obligations can be met -/

theorem witness_DecodeAndEncodeAreInverse :
    Instr.wf .addrDecGuess = true ∧ decode 0x28#32 = .ok .addrDecGuess := by decide

theorem witness_IllegalWordsRaiseContractViolation :
    wordOp 0x00#32 = 0x0#4 ∧ 0x9 ≤ (wordOp 0x09#32).toNat ∧ wordAlph 0x34#32 = 0b11#2 ∧
      (wordAlph 0x11#32 ≠ 0b00#2 ∧ wordOp 0x11#32 ∈ [0x1#4, 0x2#4, 0x5#4, 0x6#4]) ∧
      (wordAlph 0x23#32 = 0b10#2 ∧ wordOp 0x23#32 ∈ [0x3#4, 0x7#4]) ∧ wordRsv 0x40#32 ≠ 0#26 ∧
      0x40#32 ∉ commandTable.map Prod.fst ∧
      (State.reset.setPort [commandEvent 0x40#32]).port = commandEvent 0x40#32 :: [] := by decide

theorem witness_StepRunsTheDecodedCommand :
    (State.reset.setPort [commandEvent 0x24#32]).port = commandEvent 0x24#32 :: [] ∧
      decode 0x24#32 = .ok .b64DecGuess ∧ (∃ t, exec .b64DecGuess State.reset = .next t) ∧
      decode 0x01#32 = .ok .crcCompute ∧ exec .crcCompute State.reset = .fault .unwrittenByte := by
  refine ⟨rfl, by decide, ?_, by decide, fault_of_faultsWith (by decide)⟩
  obtain ⟨t, h, _⟩ := next_of_endsIn (o := exec .b64DecGuess State.reset) (p := fun _ => true)
    (by decide)
  exact ⟨t, h⟩

theorem witness_StepDeliversTheNextAccess : 0x000 < 0x200 ∧ 0x1FF < 0x200 := by decide

theorem witness_IdleBlockHoldsItsState : State.reset.port = [] := rfl

theorem witness_HostAddressIsBasePlusOffset :
    BusAccess.rd8 ∈ [BusAccess.rd8, BusAccess.rd32, fun p => BusAccess.wr8 p 0#8,
        fun p => BusAccess.wr32 p 0#32] ∧ 0x1FF < 0x200 ∧
      (Config.base + 0x200 < Config.base ∨ Config.base + 0x200 ≤ Config.base + 0x200) :=
  ⟨List.mem_cons_self, by decide, .inr le_rfl⟩

theorem witness_ResetPulseRestoresReset :
    (State.reset.setPort [.reset]).port = HostEvent.reset :: [] ∧
      (HostEvent.reset = .reset ∨ ∃ a, HostEvent.reset = .resetDuring a) ∧
      (State.reset.setPort [.resetDuring (.rd8 (.offset 0))]).port =
        HostEvent.resetDuring (.rd8 (.offset 0)) :: [] :=
  ⟨rfl, .inl rfl, rfl⟩

theorem witness_ControlRegisterAccess : 0x000 < 0x018 ∧ 0x017 < 0x018 ∧ 0x017 % 4 ≠ 0 := by decide

theorem witness_BusErrorExactlyWhereStated : 0x000 < 0x200 ∧ 0x063 < 0x200 ∧ 0x1FF < 0x200 := by decide

theorem witness_ArrayWordsTravelInLittleEndianLanes :
    0x060 % 4 = 0 ∧ (0x040 ≤ 0x060 ∧ 0x060 < 0x064) ∧
      ∀ k : Fin 4, (withBuf buf).mem.read (0x060 + k) = some (buf.getD (32 + k) 0#8) := by
  decide +kernel

theorem witness_OnlyCommandWritesHaveSideEffects :
    (∃ t, busRead8 0x063 (withBuf buf) = .next t) ∧ (∃ t, busRead32 0x060 (withBuf buf) = .next t) ∧
      (∃ t, busWrite8 0x1FF 7#8 State.reset = .next t) ∧
      (0x1FC ≠ 0x000 ∧ ∃ t, busWrite32 0x1FC 7#32 State.reset = .next t) ∧
      (0x008 < 0x020 ∧ ∃ t, busWrite32 0x008 7#32 State.reset = .next t) := by
  refine ⟨?_, ?_, ?_, ⟨by decide, ?_⟩, ⟨by decide, ?_⟩⟩
  · obtain ⟨t, h, _⟩ := next_of_endsIn (o := busRead8 0x063 (withBuf buf)) (p := fun _ => true)
      (by decide +kernel)
    exact ⟨t, h⟩
  · obtain ⟨t, h, _⟩ := next_of_endsIn (o := busRead32 0x060 (withBuf buf)) (p := fun _ => true)
      (by decide +kernel)
    exact ⟨t, h⟩
  · exact ⟨_, rfl⟩
  · exact ⟨_, rfl⟩
  · exact ⟨_, rfl⟩

theorem witness_ReadGivesTheLatestWrite :
    ((0x020 ≤ 0x020 ∧ 0x020 < 0x064) ∨ (0x100 ≤ 0x020 ∧ 0x020 < 0x200)) ∧
      ((0x020 ≤ 0x1FF ∧ 0x1FF < 0x064) ∨ (0x100 ≤ 0x1FF ∧ 0x1FF < 0x200)) := by decide

theorem witness_UnwrittenBytesFault :
    (∃ t, busWrite8 0x020 7#8 State.reset = .next t) ∧
      (0x020 ≤ 0x060 ∧ ∃ t, busWrite32 0x060 7#32 State.reset = .next t) ∧
      (writesByte .bufBuild 0x063 = true ∧ ∃ t, exec .bufBuild (withAcct acct) = .next t ∧
        decide (statusErr t.status = 0x0#4) = true) ∧
      (∃ t, exec .bufParse (withBuf (buf.set 0 0#8)) = .next t ∧
        decide (statusErr t.status ≠ 0x0#4) = true) ∧
      (decodesText .b64DecStd = true ∧ (withTxt textS).txtLen.toNat ≤ 256) ∧
      State.reset.mem.read (0x1FC + (3 : Fin 4)) = none :=
  ⟨⟨_, rfl⟩, ⟨by decide, _, rfl⟩, ⟨by decide, next_of_endsIn (by decide +kernel)⟩,
    next_of_endsIn (by decide +kernel), by decide, rfl⟩

theorem witness_CrcComputeResult : (withBuf buf).mem.readBytes 0x040 34 = some (buf.take 34) := by
  decide +kernel

theorem witness_CrcVerifyResult :
    (withBuf buf).mem.readBytes 0x040 34 = some (buf.take 34) ∧
      crc16 (buf.take 34) = State.crc { withBuf buf with crc := 0xE476#16 } ∧
      crc16 (buf.take 34) ≠ State.crc (withBuf buf) := by decide +kernel

theorem witness_Crc16IsLinear : (buf.take 34).length = (List.replicate 34 0#8).length := by decide

theorem witness_EverySingleBitFlipIsSeen :
    buf.length = 36 ∧ crc16 (buf.take 34) = storedSum buf ∧ 35 < 36 ∧ 7 < 8 := by decide +kernel

theorem witness_AlphabetTables :
    (25#6).toNat ≤ 25 ∧ (26 ≤ (51#6).toNat ∧ (51#6).toNat ≤ 51) ∧
      (52 ≤ (61#6).toNat ∧ (61#6).toNat ≤ 61) := by decide

theorem witness_AlphabetSelection :
    ((0x2D#8 ∈ [0x2D#8, 0x2F#8] ∨ 0x5F#8 ∈ [0x2D#8, 0x2F#8]) ∧
        (0x2B#8 ∈ [0x2D#8, 0x2F#8] ∨ 0x2F#8 ∈ [0x2D#8, 0x2F#8])) ∧
      ((0x2D#8 ∈ textU ∨ 0x5F#8 ∈ textU) ∧ ¬ (0x2B#8 ∈ textU ∨ 0x2F#8 ∈ textU)) ∧
      ¬ (0x2D#8 ∈ textS ∨ 0x5F#8 ∈ textS) := by decide +kernel

theorem witness_B64EncodeResult : (withBuf buf).mem.readBytes 0x040 36 = some buf := by decide +kernel

theorem witness_EncodedTextIsStandardBase64 :
    buf.length = 36 ∧ 11 < 12 ∧ (withBuf buf).mem.readBytes 0x040 36 = some buf ∧
      (∃ t, exec .b64EncUrl (withBuf buf) = .next t ∧ true = true) ∧ 48 ≤ 255 ∧ 255 < 256 :=
  ⟨by decide, by decide, by decide +kernel,
    next_of_endsIn (p := fun _ => true) (by decide +kernel), by decide, by decide⟩

theorem witness_DecodedLength :
    (List.replicate 48 0#6).length % 4 ≠ 1 ∧ (List.replicate 3 0#6).length % 4 ≠ 1 := by decide

theorem witness_DecodeSucceedsExactly : b64decWith .reject .standard textS = .ok buf ∧ 287 < 288 := by
  decide +kernel

theorem witness_Base64RoundTrip :
    buf.length = 36 ∧ b64decWith .reject .urlSafe textU = .ok buf ∧ textU.length = 48 ∧
      ∀ c ∈ textU, ∃ v, alpha .urlSafe v = c := by decide +kernel

theorem witness_DecodeErrorsInOrder :
    (∃ u c v, [0x41#8, 0x3D#8, 0x41#8] = u ++ c :: v ∧ charVal .standard c = none ∧
        (c ≠ 0x3D#8 ∨ ∃ d ∈ v, d ≠ 0x3D#8)) ∧
      ((∀ c ∈ [0x41#8], (charVal .standard c).isSome = true) ∧ [0x41#8].length % 4 = 1) ∧
      ((∀ c ∈ List.replicate 52 0x41#8, (charVal .standard c).isSome = true) ∧
        (List.replicate 52 0x41#8).length % 4 = 0 ∧ (List.replicate 52 0x41#8).length ≠ 48) :=
  ⟨⟨[0x41#8], 0x3D#8, [0x41#8], rfl, by decide, .inr ⟨0x41#8, by decide, by decide⟩⟩, by decide,
    by decide +kernel⟩

/-- The last clause: bodies of 47 and of 46 characters, leftover bits not 0 ('B', 'J') and 0 ('A'). -/
theorem witness_DecodeErrorsInOrder_leftover :
    ∀ x ∈ [0x41#8, 0x42#8, 0x4A#8], ∀ n ∈ [46, 45],
      (∀ d ∈ List.replicate n 0x41#8 ++ [x], (charVal .standard d).isSome = true) ∧
        (List.replicate n 0x41#8 ++ [x]).getLast? = some x ∧
        ((List.replicate n 0x41#8 ++ [x]).length % 4 = 2 ∨
          (List.replicate n 0x41#8 ++ [x]).length % 4 = 3) ∧
        charVal .standard 0x41#8 = some 0#6 ∧ charVal .standard 0x42#8 = some 1#6 ∧
        charVal .standard 0x4A#8 = some 9#6 := by
  decide +kernel

theorem witness_PaddingPolicies :
    (∀ c, (List.replicate 46 0x41#8).getLast? = some c → c ≠ 0x3D#8) ∧
      (List.replicate 46 0x41#8 ++ List.replicate 2 0x3D#8).length % 4 = 0 ∧
      (List.replicate 46 0x41#8 ++ List.replicate 3 0x3D#8).length % 4 ≠ 0 ∧
      (List.replicate 46 0x41#8 ++ List.replicate 0 0x3D#8).length % 4 ≠ 0 ∧
      charVals .standard (List.replicate 46 0x41#8) = some (List.replicate 46 0#6) := by
  refine ⟨?_, by decide +kernel⟩
  intro c h
  have h' : some 0x41#8 = some c := h
  cases h'
  decide

theorem witness_B64DecodeResult :
    (withTxt textU).txtLen = 48#9 ∧ (withTxt textU).mem.readBytes 0x100 48 = some textU ∧
      ∀ c ∈ textU, (charVal .urlSafe c).isSome = true := by decide +kernel

theorem witness_B64DecodeFailure :
    (withTxt (List.replicate 44 0x41#8)).txtLen.toNat ≤ 256 ∧
      (withTxt (List.replicate 44 0x41#8)).mem.readBytes 0x100 44 = some (List.replicate 44 0x41#8) ∧
      b64dec .standard (List.replicate 44 0x41#8) = .error .invalidLength ∧
      b64dec .urlSafe (List.replicate 43 0x41#8 ++ [0x2D#8]) = .error .invalidLength ∧
      (0x2D#8 ∈ textS.set 40 0x2D#8 ∧ 0x2B#8 ∈ textS.set 40 0x2D#8) := by decide +kernel

theorem witness_GuessLaw :
    (withTxt textS).mem.readBytes 0x100 (withTxt textS).txtLen.toNat = some textS ∧
      ((0x2B#8 ∈ textS ∨ 0x2F#8 ∈ textS) ∧ ¬ (0x2D#8 ∈ textS ∨ 0x5F#8 ∈ textS)) ∧
      ((0x2D#8 ∈ textU ∨ 0x5F#8 ∈ textU) ∧ ¬ (0x2B#8 ∈ textU ∨ 0x2F#8 ∈ textU)) ∧
      (withTxt []).mem.readBytes 0x100 (withTxt []).txtLen.toNat = some [] ∧
      (withTxt []).txtLen.toNat ≤ 256 ∧
      ∃ u, exec .b64DecGuess (withTxt []) = .next u ∧ true = true :=
  ⟨by decide +kernel, by decide +kernel, by decide +kernel, by decide, by decide,
    next_of_endsIn (p := fun _ => true) (by decide)⟩

theorem witness_FlagByteTable : 0x13#8 ∉ [0x11#8, 0x51#8, 0x91#8, 0xD1#8] := by decide

theorem witness_BuiltBufferLayout : acct.length = 32 ∧ 31 < 32 := by decide

theorem witness_BufBuildResult : (withAcct acct).mem.readBytes 0x020 32 = some acct := by decide +kernel

theorem witness_BufParseResult :
    (withBuf buf).mem.readBytes 0x040 36 = some buf ∧ buf.getD 0 0#8 = flagByte true false ∧
      crc16 (buf.take 34) = buf.getD 34 0#8 ++ buf.getD 35 0#8 ∧
      (withBuf (buf.set 35 0x77#8)).mem.readBytes 0x040 36 = some (buf.set 35 0x77#8) ∧
      crc16 ((buf.set 35 0x77#8).take 34) ≠
        (buf.set 35 0x77#8).getD 34 0#8 ++ (buf.set 35 0x77#8).getD 35 0#8 ∧
      (buf.set 0 0x55#8).getD 0 0#8 ∉ [0x11#8, 0x51#8, 0x91#8, 0xD1#8] := by decide +kernel

theorem witness_BuildThenParse :
    acct.length = 32 ∧ (withAcct acct).mem.readBytes 0x020 32 = some acct := by decide +kernel

theorem witness_ParseOutcomeOfABitFlip :
    acct.length = 32 ∧ 0 < 36 ∧ 35 < 36 ∧ 5 < 8 ∧ 7 < 8 ∧ (0 = 0 ∧ 5 < 6) ∧ (0 = 0 ∧ 6 ≤ 7) ∧ 0 < 35 := by
  decide

theorem witness_AddrEncodeResult : (withAcct acct).mem.readBytes 0x020 32 = some acct := by
  decide +kernel

theorem witness_AddrDecodeResult :
    acct.length = 32 ∧ (withTxt textU).txtLen = 48#9 ∧
      (withTxt textU).mem.readBytes 0x100 48 =
        some (b64enc .urlSafe (build36 true false 0x00#8 acct)) ∧
      (withTxt textS).mem.readBytes 0x100 48 =
        some (b64enc .standard (build36 true false 0x00#8 acct)) := by decide +kernel

theorem witness_AddrDecodeErrorPriority :
    256 < (State.setTxtLen State.reset 257#9).txtLen.toNat ∧
      ((State.setTxtLen State.reset 256#9).txtLen.toNat ≤ 256 ∧
        (State.setTxtLen State.reset 256#9).mem.readBytes 0x100 256 = none) ∧
      (withTxt textS).mem.readBytes 0x100 (withTxt textS).txtLen.toNat = some textS ∧
      selectAlphabet .guess (textS.set 40 0x2D#8) = .error .invalidBase64 ∧
      selectAlphabet .guess textS = .ok .standard ∧
      b64dec .standard (List.replicate 44 0x41#8) = .error .invalidLength ∧
      b64dec .standard ((textS.set 0 0x41#8).set 1 0x41#8) = .ok (buf.set 0 0x00#8) ∧
      (buf.set 0 0x00#8).getD 0 0#8 ∉ [0x11#8, 0x51#8, 0x91#8, 0xD1#8] ∧
      b64dec .standard (textS.set 0 0x55#8) = .ok (buf.set 0 0x51#8) ∧
      (buf.set 0 0x51#8).getD 0 0#8 ∈ [0x11#8, 0x51#8, 0x91#8, 0xD1#8] ∧
      crc16 ((buf.set 0 0x51#8).take 34) ≠ storedSum (buf.set 0 0x51#8) := by decide +kernel

theorem witness_AddressRoundTrip : (withAcct acct).mem.readBytes 0x020 32 = some acct := by
  decide +kernel

theorem witness_AnySubstitutionIsRejected :
    acct.length = 32 ∧ 0 < 48 ∧
      0x55#8 ≠ (b64enc .standard (build36 true false 0x00#8 acct)).getD 0 0#8 ∧
      decodeText .guess ((b64enc .standard (build36 true false 0x00#8 acct)).set 0 0x55#8) =
        .ok (.standard, buf.set 0 0x51#8) := by decide +kernel

/-- ACCT of the address in log entry 18: 31 bytes 0x00, then 0xF8. -/
def clashAcct : List Byte := List.replicate 31 0x00#8 ++ [0xF8#8]

/-- R188 against R189 (log entry 18): '-' for the one '+' (place 44) of this address's Standard text gives
the very text ADDR.ENC.URL writes, so R188 says it decodes where R189 says no substitution does. -/
theorem test_substitution_is_urlSafe_text :
    (b64enc .standard (build36 true false 0x00#8 clashAcct))[44]? = some 0x2B#8 ∧
      (b64enc .standard (build36 true false 0x00#8 clashAcct)).set 44 0x2D#8 =
        b64enc .urlSafe (build36 true false 0x00#8 clashAcct) := by decide +kernel

/-- Each clause has a substitution of S that meets it: '-' at 0, and at 18 with the value it replaces,
mixes the sets, '=' at 47 is outside the alphabet, 'U' at 0 is inside it. -/
theorem witness_ValueChangingSubstitutionIsRejected :
    acct.length = 32 ∧
      (∀ x ∈ [(0, 0x2D#8), (18, 0x2D#8), (47, 0x3D#8), (0, 0x55#8)],
        x.1 < 48 ∧
          (∀ B ∈ [Alphabet.standard, .urlSafe],
            (b64enc .standard (build36 true false 0x00#8 acct)).set x.1 x.2 ≠
              b64enc B (build36 true false 0x00#8 acct)) ∧
          (withTxt (textS.set x.1 x.2)).txtLen = 48#9 ∧
          (withTxt (textS.set x.1 x.2)).mem.readBytes 0x100 48 =
            some ((b64enc .standard (build36 true false 0x00#8 acct)).set x.1 x.2)) ∧
      selectAlphabet .guess (textS.set 0 0x2D#8) = .error .invalidBase64 ∧
      selectAlphabet .guess (textS.set 18 0x2D#8) = .error .invalidBase64 ∧
      (∃ d ∈ textS.set 47 0x3D#8, charVal .standard d = none) ∧
      ∀ d ∈ textS.set 0 0x55#8, (charVal .standard d).isSome = true := by decide +kernel

theorem witness_ContractViolationCases :
    0x00#32 ∉ commandTable.map Prod.fst ∧
      (0x28#32 ∈ [0x04#32, 0x14#32, 0x24#32, 0x08#32, 0x18#32, 0x28#32] ∧
        256 < (State.setTxtLen State.reset 257#9).txtLen.toNat) ∧
      (∃ t, runCommand 0x00#32 (State.recordViolation State.reset true) = .next t ∧
        decide (statusErr t.status = 0xF#4) = true) ∧
      (State.recordViolation State.reset true).violated = true :=
  ⟨by decide, by decide, next_of_endsIn (by decide), rfl⟩

theorem witness_ViolationStaysUntilReset :
    (State.recordViolation State.reset true).violated = true ∧
      (∃ t, step ((State.recordViolation State.reset true).setPort [commandEvent 0x24#32]) = .next t ∧
        true = true) ∧
      commandEvent 0x24#32 ≠ .reset :=
  ⟨rfl, next_of_endsIn (p := fun _ => true) (by decide), by decide⟩

theorem witness_ErrorsByCommand :
    (∃ t, exec .b64DecGuess State.reset = .next t ∧ true = true) ∧
      0x00#32 ∉ commandTable.map Prod.fst :=
  ⟨next_of_endsIn (p := fun _ => true) (by decide), by decide⟩

theorem witness_StatusAfterACommand :
    ∃ t, runCommand 0x02#32 (State.setCrc (withBuf buf) 0xE476#16) = .next t ∧
      statusMatch t.status = true :=
  next_of_endsIn (p := fun t => statusMatch t.status) (by decide +kernel)

theorem witness_StatusReportsTheAlphabet :
    (∃ t, exec .addrDecGuess (withTxt (textS.set 40 0x2D#8)) = .next t ∧ true = true) ∧
      (withTxt (textS.set 40 0x2D#8)).txtLen.toNat ≤ 256 ∧
      (withTxt (textS.set 40 0x2D#8)).mem.readBytes 0x100 48 = some (textS.set 40 0x2D#8) ∧
      selectAlphabet .guess (textS.set 40 0x2D#8) = .error .invalidBase64 ∧
      selectAlphabet .guess textU = .ok .urlSafe ∧
      (decodesText .b64DecStd = true ∧ 256 < (State.setTxtLen State.reset 257#9).txtLen.toNat) :=
  ⟨next_of_endsIn (p := fun _ => true) (by decide +kernel), by decide, by decide +kernel,
    by decide +kernel, by decide +kernel, by decide⟩

theorem witness_FailedCommandChangesOnlyStatus :
    ∃ t, runCommand 0x06#32 (withBuf (buf.set 0 0#8)) = .next t ∧
      decide (statusErr t.status ≠ 0x0#4) = true :=
  next_of_endsIn (p := fun t => decide (statusErr t.status ≠ 0x0#4)) (by decide +kernel)

theorem witness_CommandsWriteOnlyTheirWriteSet :
    (∃ t, exec .addrEncStd (withAcct acct) = .next t ∧ true = true) ∧
      writesByte .addrEncStd 0x064 = false ∧ writesByte .addrEncStd 0x130 = false :=
  ⟨next_of_endsIn (p := fun _ => true) (by decide +kernel), by decide, by decide⟩

theorem witness_CommandsDependOnlyOnTheirReadSet :
    agreeOnReads .crcCompute State.reset (State.setWc State.reset 5#8) ∧
      exec .crcCompute State.reset = .fault .unwrittenByte ∧
      agreeOnReads .b64DecGuess State.reset (State.setWc State.reset 5#8) ∧
      ∃ t, exec .b64DecGuess State.reset = .next t ∧ true = true :=
  ⟨⟨fun _ _ => rfl, fun _ => rfl, fun _ => rfl, by decide⟩, fault_of_faultsWith (by decide),
    ⟨fun _ _ => rfl, fun _ => rfl, fun _ => rfl, by decide⟩,
    next_of_endsIn (p := fun _ => true) (by decide)⟩

theorem witness_ReissueLeavesTheSameState :
    ∃ t, exec .addrEncUrl (withAcct acct) = .next t ∧ true = true :=
  next_of_endsIn (p := fun _ => true) (by decide +kernel)

theorem witness_StatusIsReadOnlyForTheHost :
    (State.reset.setPort [commandEvent 0x24#32]).port = commandEvent 0x24#32 :: [] ∧
      ∃ t, step (State.reset.setPort [commandEvent 0x24#32]) = .next t ∧
        decide (t.status ≠ State.reset.status) = true :=
  ⟨rfl, next_of_endsIn (by decide)⟩

theorem witness_StepKeepsTheInvariant :
    (State.reset.setPort [commandEvent 0x24#32]).Inv ∧
      ∃ t, step (State.reset.setPort [commandEvent 0x24#32]) = .next t ∧ true = true :=
  ⟨⟨by decide, by decide, by decide, by decide⟩, next_of_endsIn (p := fun _ => true) (by decide)⟩

theorem witness_WordWriteIsFourByteWrites :
    0x1FC % 4 = 0 ∧ ((0x020 ≤ 0x1FC ∧ 0x1FC < 0x064) ∨ (0x100 ≤ 0x1FC ∧ 0x1FC < 0x200)) := by decide

end Sys2Proof.Machine.Tests
end

section
/-! The sets R75 gives each command, as ranges of window offsets: the one range of array bytes a command
reads, and the ranges a command that succeeds stores. -/

namespace Sys2Proof.Machine

/-! ## The bytes a command reads -/

theorem within_iff {base n a : Nat} : within base n a = true ↔ base ≤ a ∧ a < base + n := by
  simp [within]

/-- The array bytes a command reads (R75): their first offset and how many they are. -/
def readRange : Instr → State → Nat × Nat
  | .crcCompute, _ | .crcVerify, _ => (bufBase, 34)
  | .b64EncStd, _ | .b64EncUrl, _ | .bufParse, _ => (bufBase, 36)
  | .b64DecStd, s | .b64DecUrl, s | .b64DecGuess, s
  | .addrDecStd, s | .addrDecUrl, s | .addrDecGuess, s => (txtBase, s.txtLen.toNat)
  | .bufBuild, _ | .addrEncStd, _ | .addrEncUrl, _ => (acctBase, 32)

theorem inputOf_eq_readBytes (i : Instr) (s : State) :
    inputOf i s = s.mem.readBytes (readRange i s).1 (readRange i s).2 := by
  cases i <;> rfl

theorem readsByte_eq_within (i : Instr) (s : State) (a : Nat) :
    readsByte i s a = within (readRange i s).1 (readRange i s).2 a := by
  cases i <;> rfl

/-- A command has no input exactly when a byte of its read set is unwritten (R35). -/
theorem inputOf_eq_none_iff {i : Instr} {s : State} :
    inputOf i s = none ↔ ∃ a, readsByte i s a = true ∧ s.mem.read a = none := by
  rw [inputOf_eq_readBytes, Memory.readBytes_eq_none_iff]
  simp only [readsByte_eq_within, within_iff]
  constructor
  · rintro ⟨k, hk, hr⟩
    exact ⟨_, ⟨Nat.le_add_right .., by omega⟩, hr⟩
  · rintro ⟨a, ⟨hle, hlt⟩, hr⟩
    exact ⟨a - (readRange i s).1, by omega, by rwa [Nat.add_sub_cancel' hle]⟩

/-! ## Stores to a list of ranges -/

/-- `m'` is `m` after one sequence write to each of the ranges (first offset, length), in order. -/
inductive Memory.StoredOver : Memory → List (Nat × Nat) → Memory → Prop where
  | nil (m : Memory) : StoredOver m [] m
  | cons {m m' : Memory} {a n : Nat} {rs : List (Nat × Nat)} (bs : List Byte) (hn : bs.length = n)
      (h : StoredOver (m.writeBytes a bs) rs m') : StoredOver m ((a, n) :: rs) m'

theorem Memory.storedOver_one {m : Memory} {a n : Nat} {bs : List Byte} (h : bs.length = n) :
    Memory.StoredOver m [(a, n)] (m.writeBytes a bs) := .cons bs h (.nil _)

theorem Memory.storedOver_two {m : Memory} {a n c k : Nat} {bs cs : List Byte} (h : bs.length = n)
    (h' : cs.length = k) :
    Memory.StoredOver m [(a, n), (c, k)] ((m.writeBytes a bs).writeBytes c cs) :=
  .cons bs h (Memory.storedOver_one h')

/-- A sequence write marks every byte it covers (R35). -/
theorem Memory.isSome_read_writeBytes_inside (m : Memory) {a c : Nat} {bs : List Byte} (h : a ≤ c)
    (h' : c < a + bs.length) : ((m.writeBytes a bs).read c).isSome = true := by
  have hi : c - a < bs.length := by omega
  have hr := Memory.read_writeBytes_inside m (a := a) bs hi
  rw [Nat.add_sub_cancel' h] at hr
  simp [hr, hi]

/-- A sequence write clears no mark. -/
theorem Memory.isSome_read_writeBytes {m : Memory} {c : Nat} (a : Nat) (bs : List Byte)
    (h : (m.read c).isSome = true) : ((m.writeBytes a bs).read c).isSome = true := by
  by_cases hc : c < a ∨ a + bs.length ≤ c
  · rwa [Memory.read_writeBytes_outside m bs hc]
  · exact Memory.isSome_read_writeBytes_inside m (by omega) (by omega)

theorem Memory.StoredOver.isSome_read {m m' : Memory} {rs : List (Nat × Nat)}
    (h : Memory.StoredOver m rs m') {c : Nat} (hc : (m.read c).isSome = true) :
    (m'.read c).isSome = true := by
  induction h with
  | nil => exact hc
  | cons bs _ _ ih => exact ih (Memory.isSome_read_writeBytes _ bs hc)

/-- Every byte of every range is marked afterwards. -/
theorem Memory.StoredOver.isSome_read_of_mem {m m' : Memory} {rs : List (Nat × Nat)}
    (h : Memory.StoredOver m rs m') {r : Nat × Nat} (hr : r ∈ rs) {c : Nat} (hle : r.1 ≤ c)
    (hlt : c < r.1 + r.2) : (m'.read c).isSome = true := by
  induction h with
  | nil => cases hr
  | cons bs hn h ih =>
    rcases List.mem_cons.1 hr with rfl | hr
    · exact h.isSome_read (Memory.isSome_read_writeBytes_inside _ hle (by rwa [hn]))
    · exact ih hr

theorem Memory.StoredOver.wf {m m' : Memory} {rs : List (Nat × Nat)}
    (h : Memory.StoredOver m rs m') (hw : m.wf = true) : m'.wf = true := by
  induction h with
  | nil => exact hw
  | cons bs _ _ ih => exact ih (Memory.wf_writeBytes _ bs hw)

/-- Stores to array offsets only keep the memory at array offsets. -/
theorem Memory.StoredOver.placed {m m' : Memory} {rs : List (Nat × Nat)}
    (h : Memory.StoredOver m rs m') (hm : Memory.placed m = true)
    (hrs : ∀ r ∈ rs, ∀ k, k < r.2 → isArrayRegion (region (r.1 + k)) = true) :
    Memory.placed m' = true := by
  induction h with
  | nil => exact hm
  | cons bs hn _ ih =>
    obtain ⟨hr, hrs⟩ := List.forall_mem_cons.1 hrs
    exact ih (Memory.placed_writeBytes hm fun k hk => hr k (hn ▸ hk)) hrs

/-! ## The bytes a command writes -/

/-- The ranges of array bytes a command that succeeds stores, in the order it stages them (R75). -/
def writeRanges : Instr → List (Nat × Nat)
  | .crcCompute | .crcVerify => []
  | .b64EncStd | .b64EncUrl => [(txtBase, 48)]
  | .b64DecStd | .b64DecUrl | .b64DecGuess | .bufBuild => [(bufBase, 36)]
  | .bufParse => [(acctBase, 32)]
  | .addrEncStd | .addrEncUrl => [(bufBase, 36), (txtBase, 48)]
  | .addrDecStd | .addrDecUrl | .addrDecGuess => [(bufBase, 36), (acctBase, 32)]

theorem writesByte_iff {i : Instr} {a : Nat} :
    writesByte i a = true ↔ ∃ r ∈ writeRanges i, r.1 ≤ a ∧ a < r.1 + r.2 := by
  cases i <;> simp [writesByte, writeRanges, within_iff]

/-- Commands write to arrays only (R52). -/
theorem writesByte_isArrayRegion {i : Instr} {a : Nat} (h : writesByte i a = true) :
    isArrayRegion (region a) = true := by
  rw [isArrayRegion_iff]
  cases i <;> simp [writesByte, within_iff] at h <;> omega

/-! ## What a computation came to -/

theorem decEnding_done {s u : State} {mode : AlphMode} {t : List Byte} {m : Bool}
    {au : Option Alphabet} (h : decEnding s mode t = .done u m au) :
    ∃ A b, decodeText mode t = .ok (A, b) ∧ u = s.stageBuf b ∧ m = false ∧ au = some A := by
  unfold decEnding at h
  cases hd : decodeText mode t with
  | error p => simp [hd] at h
  | ok p =>
    rw [hd] at h
    cases h
    exact ⟨_, _, rfl, rfl, rfl, rfl⟩

theorem decEnding_raised {s : State} {mode : AlphMode} {t : List Byte} {e : Err}
    {au : Option Alphabet} (h : decEnding s mode t = .raised e au) :
    decodeText mode t = .error (e, au) := by
  unfold decEnding at h
  cases hd : decodeText mode t with
  | error p =>
    rw [hd] at h
    cases h
    rfl
  | ok p => simp [hd] at h

theorem addrEnding_done {s u : State} {mode : AlphMode} {t : List Byte} {m : Bool}
    {au : Option Alphabet} (h : addrEnding s mode t = .done u m au) :
    ∃ A b p, decodeText mode t = .ok (A, b) ∧ parse36 b = .ok p ∧
      u = (s.stageBuf b).stageParsed p ∧ m = false ∧ au = some A := by
  unfold addrEnding at h
  cases hd : decodeText mode t with
  | error p => simp [hd] at h
  | ok p =>
    obtain ⟨A, b⟩ := p
    cases hp : parse36 b with
    | error e => simp [hd, hp] at h
    | ok p =>
      simp only [hd, hp, Ending.done.injEq] at h
      obtain ⟨rfl, rfl, rfl⟩ := h
      exact ⟨A, b, p, rfl, hp, rfl, rfl, rfl⟩

theorem addrEnding_raised {s : State} {mode : AlphMode} {t : List Byte} {e : Err}
    {au : Option Alphabet} (h : addrEnding s mode t = .raised e au) :
    decodeText mode t = .error (e, au) ∨
      ∃ A b, decodeText mode t = .ok (A, b) ∧ parse36 b = .error e ∧ au = some A := by
  unfold addrEnding at h
  cases hd : decodeText mode t with
  | error p =>
    rw [hd] at h
    cases h
    exact .inl rfl
  | ok p =>
    obtain ⟨A, b⟩ := p
    cases hp : parse36 b with
    | error f =>
      simp only [hd, hp, Ending.raised.injEq] at h
      obtain ⟨rfl, rfl⟩ := h
      exact .inr ⟨A, b, rfl, hp, rfl⟩
    | ok p => simp [hd, hp] at h

theorem parseEnding_done {s u : State} {b : List Byte} {m : Bool} {au : Option Alphabet}
    (h : parseEnding s b = .done u m au) :
    ∃ p, parse36 b = .ok p ∧ u = s.stageParsed p ∧ m = false ∧ au = none := by
  unfold parseEnding at h
  cases hp : parse36 b with
  | error e => simp [hp] at h
  | ok p =>
    rw [hp] at h
    cases h
    exact ⟨p, rfl, rfl, rfl, rfl⟩

theorem parseEnding_raised {s : State} {b : List Byte} {e : Err} {au : Option Alphabet}
    (h : parseEnding s b = .raised e au) : parse36 b = .error e ∧ au = none := by
  unfold parseEnding at h
  cases hp : parse36 b with
  | error f =>
    rw [hp] at h
    cases h
    exact ⟨rfl, rfl⟩
  | ok p => simp [hp] at h

/-- A decoded text is 36 bytes (R128 step 5). -/
theorem length_of_decodeText {mode : AlphMode} {t b : List Byte} {A : Alphabet}
    (h : decodeText mode t = .ok (A, b)) : b.length = 36 :=
  length_of_b64decWith (decodeText_ok_iff.1 h).2

/-- The account id of a parsed buffer is 32 bytes (R166). -/
theorem length_acct_of_parse36 {b : List Byte} {p : Parsed} (hb : b.length = 36)
    (h : parse36 b = .ok p) : p.acct.length = 32 := by
  obtain ⟨-, -, -, ha⟩ := parse36_ok_iff.1 h
  simp [ha, hb]

/-- A command that succeeds has staged one sequence write to each of its ranges, and no other. -/
theorem endingOf_done_storedOver {i : Instr} {s u : State} {x : List Byte} {m : Bool}
    {au : Option Alphabet} (hx : inputOf i s = some x) (h : endingOf i s x = .done u m au) :
    Memory.StoredOver s.mem (writeRanges i) u.mem := by
  have hl := length_of_inputOf hx
  have dec {mode : AlphMode} (h : decEnding s mode x = .done u m au) :
      Memory.StoredOver s.mem [(bufBase, 36)] u.mem := by
    obtain ⟨A, b, hd, rfl, -, -⟩ := decEnding_done h
    exact Memory.storedOver_one (length_of_decodeText hd)
  have addrDec {mode : AlphMode} (h : addrEnding s mode x = .done u m au) :
      Memory.StoredOver s.mem [(bufBase, 36), (acctBase, 32)] u.mem := by
    obtain ⟨A, b, p, hd, hp, rfl, -, -⟩ := addrEnding_done h
    have hb := length_of_decodeText hd
    exact Memory.storedOver_two hb (length_acct_of_parse36 hb hp)
  have enc {A : Alphabet} {b : List Byte} (hb : b.length = 36) : (b64enc A b).length = 48 :=
    length_b64enc A 12 b hb
  have build (ha : x.length = 32) : (build36 s.bnc s.tst s.wc x).length = 36 := by
    rw [length_build36, ha]
  cases i
  case crcCompute => cases h; exact .nil _
  case crcVerify => cases h; exact .nil _
  case b64EncStd => cases h; exact Memory.storedOver_one (enc hl)
  case b64EncUrl => cases h; exact Memory.storedOver_one (enc hl)
  case b64DecStd => exact dec h
  case b64DecUrl => exact dec h
  case b64DecGuess => exact dec h
  case bufBuild => cases h; exact Memory.storedOver_one (build hl)
  case bufParse =>
    obtain ⟨p, hp, rfl, -, -⟩ := parseEnding_done h
    exact Memory.storedOver_one (length_acct_of_parse36 hl hp)
  case addrEncStd => cases h; exact Memory.storedOver_two (build hl) (enc (build hl))
  case addrEncUrl => cases h; exact Memory.storedOver_two (build hl) (enc (build hl))
  case addrDecStd => exact addrDec h
  case addrDecUrl => exact addrDec h
  case addrDecGuess => exact addrDec h

/-- MATCH = 1 comes from CRC.VERIFY alone, which uses no alphabet. -/
theorem endingOf_done_match {i : Instr} {s u : State} {x : List Byte} {m : Bool}
    {au : Option Alphabet} (h : endingOf i s x = .done u m au) : m = false ∨ au = none := by
  have dec {mode : AlphMode} (h : decEnding s mode x = .done u m au) : m = false := by
    obtain ⟨_, _, _, _, hm, _⟩ := decEnding_done h
    exact hm
  have addrDec {mode : AlphMode} (h : addrEnding s mode x = .done u m au) : m = false := by
    obtain ⟨_, _, _, _, _, _, hm, _⟩ := addrEnding_done h
    exact hm
  cases i
  case crcVerify => cases h; exact .inr rfl
  case b64DecStd => exact .inl (dec h)
  case b64DecUrl => exact .inl (dec h)
  case b64DecGuess => exact .inl (dec h)
  case bufParse =>
    obtain ⟨_, _, _, hm, _⟩ := parseEnding_done h
    exact .inl hm
  case addrDecStd => exact .inl (addrDec h)
  case addrDecUrl => exact .inl (addrDec h)
  case addrDecGuess => exact .inl (addrDec h)
  all_goals cases h; exact .inl rfl

/-- On the bytes it reads no command raises ContractViolation: the check of TXT_LEN and the decoder
alone do (R202). -/
theorem endingOf_raised_ne_contract {i : Instr} {s : State} {x : List Byte} {e : Err}
    {au : Option Alphabet} (h : endingOf i s x = .raised e au) : e ≠ .contractViolation := by
  have dec {au : Option Alphabet} {mode : AlphMode} (h : decodeText mode x = .error (e, au)) :
      e ≠ .contractViolation := by
    rcases decodeText_error h with rfl | rfl <;> decide
  have parse {b : List Byte} (h : parse36 b = .error e) : e ≠ .contractViolation := by
    rcases parse36_error h with rfl | rfl <;> decide
  have addrDec {mode : AlphMode} (h : addrEnding s mode x = .raised e au) :
      e ≠ .contractViolation := by
    rcases addrEnding_raised h with hd | ⟨_, _, _, hp, _⟩
    · exact dec hd
    · exact parse hp
  cases i
  case b64DecStd => exact dec (decEnding_raised h)
  case b64DecUrl => exact dec (decEnding_raised h)
  case b64DecGuess => exact dec (decEnding_raised h)
  case bufParse => exact parse (parseEnding_raised h).1
  case addrDecStd => exact addrDec h
  case addrDecUrl => exact addrDec h
  case addrDecGuess => exact addrDec h
  all_goals cases h

/-- The two ways a command ends: it raises an error, a ContractViolation with no alphabet; or it commits
a staged state whose array bytes are stored over its write ranges (R33). -/
theorem exec_next_cases {i : Instr} {s t : State} (h : exec i s = .next t) :
    (∃ e au, (e = .contractViolation → au = none) ∧ t = raiseError s e au) ∨
      ∃ u m au, (m = false ∨ au = none) ∧ Memory.StoredOver s.mem (writeRanges i) u.mem ∧
        t = finish u m au := by
  rcases exec_next_iff.1 h with ⟨-, -, rfl⟩ | ⟨-, x, hx, rfl⟩
  · exact .inl ⟨_, _, fun _ => rfl, rfl⟩
  · cases he : endingOf i s x with
    | raised e au => exact .inl ⟨e, au, fun hc => absurd hc (endingOf_raised_ne_contract he), rfl⟩
    | done u m au =>
      exact .inr ⟨u, m, au, endingOf_done_match he, endingOf_done_storedOver hx he, rfl⟩

end Sys2Proof.Machine
end

section
/-! What an access that reaches the block does to STATUS, the arrays and the record. -/

namespace Sys2Proof.Machine

/-- CMD is one word at the window's start (R52). -/
theorem region_eq_cmd_iff {off : Nat} : region off = .cmd ↔ off < 0x004 := by
  unfold region
  split_ifs <;> simp <;> omega

/-- CMD and the registers a host can write stand below 0x018 (R52). -/
theorem region_lt_of_register {off : Nat}
    (h : region off = .cmd ∨ region off = .flags ∨ region off = .wc ∨ region off = .crc ∨
      region off = .txtLen) : off < 0x018 := by
  unfold region at h
  split_ifs at h <;> simp at h <;> omega

/-- Everything an answered access can do: it leaves STATUS, the arrays and the record as they were; or
it stores array bytes; or, a 4-byte write to CMD, it runs a command. -/
theorem accessAt_next {a : BusAccess} {off : Nat} {s t : State} (h : accessAt a off s = .next t) :
    (t.status = s.status ∧ t.mem = s.mem ∧ t.violated = s.violated) ∨
      (∃ bs, (∀ k, k < bs.length → isArrayRegion (region (off + k)) = true) ∧
        t = (s.setMem (s.mem.writeBytes off bs)).addAnswer .written) ∨
      ∃ p w u, a = .wr32 p w ∧ off = 0x000 ∧ runCommand w s = .next u ∧
        t = u.addAnswer .written := by
  cases a with
  | rd8 p =>
    obtain ⟨-, b, -, rfl⟩ := busRead8_next_iff.1 h
    exact .inl ⟨rfl, rfl, rfl⟩
  | rd32 p =>
    obtain ⟨v, rfl⟩ := busRead32_next h
    exact .inl ⟨rfl, rfl, rfl⟩
  | wr8 p b =>
    obtain ⟨ha, rfl⟩ := busWrite8_next_iff.1 h
    refine .inr (.inl ⟨[b], fun k hk => ?_, rfl⟩)
    obtain rfl : k = 0 := by simpa using hk
    exact ha
  | wr32 p w =>
    obtain ⟨hp, hw⟩ := busWrite32_next h
    have h4 := (wordPlaced_iff off).1 hp
    rcases hw with ⟨hr, u, hu, rfl⟩ | ⟨-, rfl⟩ | ⟨-, rfl⟩ | ⟨-, rfl⟩ | ⟨-, rfl⟩ | ⟨ha, rfl⟩
    · have := region_eq_cmd_iff.1 hr
      exact .inr (.inr ⟨p, w, u, rfl, by omega, hu, rfl⟩)
    · exact .inl ⟨rfl, rfl, rfl⟩
    · exact .inl ⟨rfl, rfl, rfl⟩
    · exact .inl ⟨rfl, rfl, rfl⟩
    · exact .inl ⟨rfl, rfl, rfl⟩
    · refine .inr (.inl ⟨splitLanes w, fun k hk => ?_, rfl⟩)
      rwa [region_add_of_aligned h4 hk ha]

end Sys2Proof.Machine
end

section
/-! The machine's invariant: reset has it, and every step keeps it. -/

namespace Sys2Proof.Machine

/-- The invariant looks at the arrays, STATUS and the record only. -/
theorem State.Inv.congr {s t : State} (h : s.Inv) (hst : t.status = s.status) (hm : t.mem = s.mem)
    (hv : t.violated = s.violated) : t.Inv := by
  unfold State.Inv
  rw [hst, hm, hv]
  exact h

/-- Storing array bytes keeps the invariant. -/
theorem State.Inv.setMem_writeBytes {s : State} (h : s.Inv) {a : Nat} {bs : List Byte}
    (ha : ∀ k, k < bs.length → isArrayRegion (region (a + k)) = true) :
    (s.setMem (s.mem.writeBytes a bs)).Inv := by
  obtain ⟨hwf, hpl, hst, hv⟩ := h
  exact ⟨Memory.wf_writeBytes a bs hwf, Memory.placed_writeBytes hpl ha, hst, hv⟩

/-- The STATUS of a command that succeeds is legal (R205). -/
theorem legalStatus_of_ok {m : Bool} {au : Option Alphabet} (h : m = false ∨ au = none) :
    legalStatus (statusValue errOk m au) = true := by
  rcases h with rfl | rfl
  · rcases au with _ | _ | _ <;> decide
  · cases m <;> decide

/-- The STATUS of a raised error is legal (R205). -/
theorem legalStatus_of_err {e : Err} {au : Option Alphabet}
    (h : e = .contractViolation → au = none) :
    legalStatus (statusValue (errCode e) false au) = true := by
  cases e
  case contractViolation =>
    rw [h rfl]
    decide
  all_goals rcases au with _ | _ | _ <;> decide

/-- Raising an error keeps the invariant: ContractViolation puts itself on record (R202). -/
theorem State.Inv.raiseError {s : State} (h : s.Inv) {e : Err} {au : Option Alphabet}
    (he : e = .contractViolation → au = none) : (raiseError s e au).Inv := by
  obtain ⟨hwf, hpl, -, -⟩ := h
  refine ⟨hwf, hpl, legalStatus_of_err he, fun hF => ?_⟩
  rw [raiseError_status, statusErr_statusValue] at hF
  simp [(errCode_eq_contract e).1 hF]

/-- Every command keeps the invariant. -/
theorem State.Inv.exec {i : Instr} {s t : State} (hs : s.Inv) (h : exec i s = .next t) : t.Inv := by
  rcases exec_next_cases h with ⟨e, au, he, rfl⟩ | ⟨u, m, au, hm, hu, rfl⟩
  · exact hs.raiseError he
  · obtain ⟨hwf, hpl, -, -⟩ := hs
    refine ⟨hu.wf hwf, hu.placed hpl fun r hr k hk => ?_, legalStatus_of_ok hm, fun hF => ?_⟩
    · exact writesByte_isArrayRegion
        (writesByte_iff.2 ⟨r, hr, Nat.le_add_right .., Nat.add_lt_add_left hk _⟩)
    · rw [finish_status, statusErr_statusValue] at hF
      exact absurd hF (by decide)

/-- So does every word written to CMD. -/
theorem State.Inv.runCommand {w : Word} {s t : State} (hs : s.Inv)
    (h : runCommand w s = .next t) : t.Inv := by
  cases hd : decode w with
  | ok i =>
    rw [runCommand_of_decode hd] at h
    exact hs.exec h
  | error r =>
    rw [runCommand_of_illegal hd] at h
    obtain rfl := Host.Outcome.next.inj h
    exact hs.raiseError fun _ => rfl

/-- So does every access that reaches the block. -/
theorem State.Inv.accessAt {a : BusAccess} {off : Nat} {s t : State} (hs : s.Inv)
    (h : accessAt a off s = .next t) : t.Inv := by
  rcases accessAt_next h with ⟨hst, hm, hv⟩ | ⟨bs, ha, rfl⟩ | ⟨p, w, u, -, -, hu, rfl⟩
  · exact hs.congr hst hm hv
  · exact (hs.setMem_writeBytes ha).congr rfl rfl rfl
  · exact (hs.runCommand hu).congr rfl rfl rfl

theorem State.inv_pulseReset (s : State) : s.pulseReset.Inv :=
  ⟨rfl, rfl, rfl, fun h => absurd h (show statusErr 0x00#8 ≠ 0xF#4 by decide)⟩

/-- Settles O58: reset has the invariant as every reset pulse does. -/
theorem resetHasTheInvariant : Obligations.ResetHasTheInvariant := State.inv_pulseReset State.reset

/-- Settles O57: by what a step can do (`step_next`), and the invariant's lemma for each of it. -/
theorem stepKeepsTheInvariant : Obligations.StepKeepsTheInvariant := by
  intro s t hs h
  rcases step_next h with ⟨-, rfl⟩ | ⟨e, rest, -, ⟨a, -, ⟨-, rfl⟩ | ⟨off, -, ha⟩⟩ | ⟨-, rfl⟩⟩
  · exact hs
  · exact hs.congr rfl rfl rfl
  · have hs' : (s.setPort rest).Inv := hs.congr rfl rfl rfl
    exact hs'.accessAt ha
  · exact State.inv_pulseReset _

end Sys2Proof.Machine
end

section
/-! STATUS and the written marks: what changes them, and what the reset values are. -/

namespace Sys2Proof.Machine

/-- Settles O56: of the accesses, only one that runs a command changes STATUS. -/
theorem statusIsReadOnlyForTheHost : Obligations.StatusIsReadOnlyForTheHost := by
  intro s t e rest hp h hne
  rcases step_next h with ⟨hp', -⟩ | ⟨e', rest', hp', hstep⟩
  · simp [hp] at hp'
  obtain ⟨rfl, rfl⟩ := List.cons.inj (hp.symm.trans hp')
  rcases hstep with ⟨a, rfl, ⟨-, rfl⟩ | ⟨off, hoff, ha⟩⟩ | ⟨he, -⟩
  · exact absurd rfl hne
  · rcases accessAt_next ha with ⟨hst, -, -⟩ | ⟨bs, -, rfl⟩ | ⟨p, w, u, rfl, rfl, -, -⟩
    · exact absurd hst hne
    · exact absurd rfl hne
    · exact .inr (.inr ⟨p, w, rfl, hoff⟩)
  · exact he.imp_right .inl

/-- A word handed to the block at CMD runs its command, then the write is answered (R59, R70). -/
theorem deliver_commandEvent (w : Word) (s : State) :
    deliver (commandEvent w) s = acknowledge (runCommand w s) := rfl

/-- Settles O5: the write to CMD acknowledges what its command comes to. -/
theorem stepRunsTheDecodedCommand : Obligations.StepRunsTheDecodedCommand := by
  intro s rest w i hp hd
  have hstep : step s = acknowledge (exec i (s.setPort rest)) := by
    rw [step_of_event hp, deliver_commandEvent, runCommand_of_decode hd]
  constructor
  · intro t ht
    exact hstep.trans (congrArg acknowledge ht)
  · intro f hf
    exact hstep.trans (congrArg acknowledge hf)

/-- Settles O9: State.reset holds the values of R36 by definition. -/
theorem resetLeavesTheStatedValues : Obligations.ResetLeavesTheStatedValues :=
  ⟨rfl, rfl, rfl, rfl, rfl, Memory.read_nil, rfl⟩

/-! ## The written marks (R35) -/

/-- A 1-byte write is read back. -/
theorem read_of_busWrite8 {s t : State} {off : Nat} {b : Byte} (h : busWrite8 off b s = .next t) :
    t.mem.read off = some b := by
  obtain ⟨-, rfl⟩ := busWrite8_next_iff.1 h
  exact Memory.read_write_same s.mem off b

/-- A 4-byte write above the registers stores the four lanes. -/
theorem busWrite32_array_next {s t : State} {off : Nat} {v : Word} (h20 : 0x020 ≤ off)
    (h : busWrite32 off v s = .next t) :
    t = (s.setMem (s.mem.writeBytes off (splitLanes v))).addAnswer .written := by
  have reg := mt (region_lt_of_register (off := off)) (by omega)
  obtain ⟨-, ⟨hr, -⟩ | ⟨hr, -⟩ | ⟨hr, -⟩ | ⟨hr, -⟩ | ⟨hr, -⟩ | ⟨-, ht⟩⟩ := busWrite32_next h
  · exact absurd (.inl hr) reg
  · exact absurd (.inr (.inl hr)) reg
  · exact absurd (.inr (.inr (.inl hr))) reg
  · exact absurd (.inr (.inr (.inr (.inl hr)))) reg
  · exact absurd (.inr (.inr (.inr (.inr hr)))) reg
  · exact ht

/-- A command that ends without error leaves its write set marked. -/
theorem isSome_read_of_exec_ok {i : Instr} {s t : State} {a : Nat} (h : exec i s = .next t)
    (hok : statusErr t.status = 0x0#4) (ha : writesByte i a = true) :
    (t.mem.read a).isSome = true := by
  rcases exec_next_cases h with ⟨e, au, -, rfl⟩ | ⟨u, m, au, -, hu, rfl⟩
  · rw [raiseError_status, statusErr_statusValue] at hok
    exact absurd hok (errCode_ne_zero e)
  · obtain ⟨r, hr, hle, hlt⟩ := writesByte_iff.1 ha
    exact hu.isSome_read_of_mem hr hle hlt

/-- A command that ends with an error leaves the arrays as they were (R33). -/
theorem mem_of_exec_err {i : Instr} {s t : State} (h : exec i s = .next t)
    (herr : statusErr t.status ≠ 0x0#4) : t.mem = s.mem := by
  rcases exec_next_cases h with ⟨e, au, -, rfl⟩ | ⟨u, m, au, -, -, rfl⟩
  · rfl
  · rw [finish_status, statusErr_statusValue] at herr
    exact absurd rfl herr

theorem busRead8_of_unwritten {s : State} {off : Nat} (ha : isArrayRegion (region off) = true)
    (h : s.mem.read off = none) : busRead8 off s = .fault .unwrittenByte := by
  simp [busRead8, ha, h]

theorem busRead32_of_unwritten {s : State} {off : Nat} (h4 : off % 4 = 0)
    (ha : isArrayRegion (region off) = true) {k : Fin 4} (h : s.mem.read (off + k) = none) :
    busRead32 off s = .fault .unwrittenByte := by
  have hn : s.mem.readBytes off 4 = none := (Memory.readBytes_eq_none_iff ..).2 ⟨k, k.isLt, h⟩
  unfold busRead32
  rw [if_pos ((wordPlaced_iff off).2 h4), hn]
  cases hr : region off
  case acct => rfl
  case buf => rfl
  case txt => rfl
  all_goals rw [hr] at ha; cases ha

/-- Settles O16, clause by clause. -/
theorem unwrittenBytesFault : Obligations.UnwrittenBytesFault := by
  refine ⟨Memory.read_nil, fun s t off b => read_of_busWrite8, ?_, fun i s t a => isSome_read_of_exec_ok,
    fun i s t => mem_of_exec_err, ?_, ?_⟩
  · intro s t off v h20 h k
    rw [busWrite32_array_next h20 h]
    exact Memory.isSome_read_writeBytes_inside s.mem (Nat.le_add_right ..)
      (Nat.add_lt_add_left k.isLt off)
  · intro i s hl
    rw [exec_fault_iff, ← inputOf_eq_none_iff]
    exact ⟨fun ⟨_, hx, _⟩ => hx, fun hx => ⟨hl, hx, rfl⟩⟩
  · intro s off hoff
    have ha : isArrayRegion (region off) = true := (isArrayRegion_iff off).2 (by omega)
    exact ⟨busRead8_of_unwritten ha, fun h4 ⟨_, hk⟩ => busRead32_of_unwritten h4 ha hk⟩

end Sys2Proof.Machine
end

section
/-! The alphabet STATUS reports (R32), and a text that does not decode (R136 to R138). -/

namespace Sys2Proof.Machine

/-- The alphabet an ending carries to STATUS.AU. -/
def Ending.alphabet : Ending → Option Alphabet
  | .done _ _ au => au
  | .raised _ au => au

/-- AU after a command is the alphabet of its ending (R205). -/
@[simp] theorem statusAu_commit (s : State) (e : Ending) :
    statusAu (commit s e).status = auCode e.alphabet := by
  cases e <;> simp [Ending.alphabet]

/-- Decoding a text carries the alphabet selected for it, whatever comes of the text. -/
theorem decEnding_alphabet (s : State) (mode : AlphMode) (t : List Byte) :
    (decEnding s mode t).alphabet = (selectAlphabet mode t).toOption := by
  cases h : decEnding s mode t with
  | done u m au =>
    obtain ⟨A, b, hd, -, -, rfl⟩ := decEnding_done h
    simp [Ending.alphabet, (decodeText_ok_iff.1 hd).1, Except.toOption]
  | raised e au =>
    rcases decodeText_error_iff.1 (decEnding_raised h) with ⟨hs, rfl⟩ | ⟨A, hs, -, rfl⟩ <;>
      simp [Ending.alphabet, hs, Except.toOption]

theorem addrEnding_alphabet (s : State) (mode : AlphMode) (t : List Byte) :
    (addrEnding s mode t).alphabet = (selectAlphabet mode t).toOption := by
  cases h : addrEnding s mode t with
  | done u m au =>
    obtain ⟨A, b, p, hd, -, -, -, rfl⟩ := addrEnding_done h
    simp [Ending.alphabet, (decodeText_ok_iff.1 hd).1, Except.toOption]
  | raised e au =>
    rcases addrEnding_raised h with hd | ⟨A, b, hd, -, rfl⟩
    · rcases decodeText_error_iff.1 hd with ⟨hs, rfl⟩ | ⟨A, hs, -, rfl⟩ <;>
        simp [Ending.alphabet, hs, Except.toOption]
    · simp [Ending.alphabet, (decodeText_ok_iff.1 hd).1, Except.toOption]

theorem parseEnding_alphabet (s : State) (b : List Byte) : (parseEnding s b).alphabet = none := by
  cases h : parseEnding s b with
  | done u m au =>
    obtain ⟨p, -, -, -, rfl⟩ := parseEnding_done h
    rfl
  | raised e au => exact (parseEnding_raised h).2

/-- The alphabet a command uses on the bytes it reads (R32). -/
def alphabetOf : Instr → List Byte → Option Alphabet
  | .crcCompute, _ | .crcVerify, _ | .bufBuild, _ | .bufParse, _ => none
  | .b64EncStd, _ | .addrEncStd, _ | .b64DecStd, _ | .addrDecStd, _ => some .standard
  | .b64EncUrl, _ | .addrEncUrl, _ | .b64DecUrl, _ | .addrDecUrl, _ => some .urlSafe
  | .b64DecGuess, t | .addrDecGuess, t => (selectAlphabet .guess t).toOption

theorem endingOf_alphabet (i : Instr) (s : State) (x : List Byte) :
    (endingOf i s x).alphabet = alphabetOf i x := by
  cases i
  case b64DecStd => exact decEnding_alphabet s .standard x
  case b64DecUrl => exact decEnding_alphabet s .urlSafe x
  case b64DecGuess => exact decEnding_alphabet s .guess x
  case bufParse => exact parseEnding_alphabet s x
  case addrDecStd => exact addrEnding_alphabet s .standard x
  case addrDecUrl => exact addrEnding_alphabet s .urlSafe x
  case addrDecGuess => exact addrEnding_alphabet s .guess x
  all_goals rfl

/-- A command that refuses TXT_LEN reports no alphabet (R202, R32). -/
theorem statusAu_of_long_text {i : Instr} {s t : State} (h : exec i s = .next t)
    (hd : decodesText i = true) (hl : 256 < s.txtLen.toNat) : statusAu t.status = 0b00#2 := by
  rcases exec_next_iff.1 h with ⟨-, -, rfl⟩ | ⟨hle, -⟩
  · rw [raiseError_status, statusAu_statusValue]
    rfl
  · exact absurd (hle hd) (by omega)

/-- Any other command reports the alphabet it uses on what it reads. -/
theorem statusAu_of_alphabetOf {i : Instr} {s t : State} (h : exec i s = .next t)
    (hl : decodesText i = true → s.txtLen.toNat ≤ 256) {au : Option Alphabet}
    (hau : ∀ x, inputOf i s = some x → alphabetOf i x = au) : statusAu t.status = auCode au := by
  rcases exec_next_iff.1 h with ⟨hd, hlt, -⟩ | ⟨-, x, hx, rfl⟩
  · exact absurd (hl hd) (by omega)
  · rw [statusAu_commit, endingOf_alphabet, hau x hx]

theorem alphabetOf_guess {i : Instr} (hi : i ∈ [Instr.b64DecGuess, .addrDecGuess]) (x : List Byte) :
    alphabetOf i x = (selectAlphabet .guess x).toOption := by
  fin_cases hi <;> rfl

theorem inputOf_guess {i : Instr} (hi : i ∈ [Instr.b64DecGuess, .addrDecGuess]) (s : State) :
    inputOf i s = s.textBytes := by
  fin_cases hi <;> rfl

/-- Settles O50: by the alphabet of each command's ending. -/
theorem statusReportsTheAlphabet : Obligations.StatusReportsTheAlphabet := by
  intro i s t h
  refine ⟨fun hi => ?_, fun hi => ?_, fun hi => ?_, statusAu_of_long_text h, fun hl => ⟨fun hi => ?_,
    fun hi => ?_, fun hi x hx => ?_⟩⟩
  · fin_cases hi <;> exact statusAu_of_alphabetOf h nofun (au := none) fun _ _ => rfl
  · fin_cases hi <;> exact statusAu_of_alphabetOf h nofun (au := some .standard) fun _ _ => rfl
  · fin_cases hi <;> exact statusAu_of_alphabetOf h nofun (au := some .urlSafe) fun _ _ => rfl
  · fin_cases hi <;>
      exact statusAu_of_alphabetOf h (fun _ => hl) (au := some .standard) fun _ _ => rfl
  · fin_cases hi <;>
      exact statusAu_of_alphabetOf h (fun _ => hl) (au := some .urlSafe) fun _ _ => rfl
  · have hau : statusAu t.status = auCode (selectAlphabet .guess x).toOption := by
      refine statusAu_of_alphabetOf h (fun _ => hl) fun y hy => ?_
      obtain rfl : x = y := Option.some.inj (hx.symm.trans ((inputOf_guess hi s).symm.trans hy))
      exact alphabetOf_guess hi x
    refine ⟨fun hsel => ?_, fun A hsel => ?_⟩ <;> rw [hsel] at hau <;> exact hau

/-! ## A text that does not decode -/

theorem any_exclusiveTo_iff {A : Alphabet} {t : List Byte} :
    t.any (exclusiveTo A) = true ↔ char62 A ∈ t ∨ char63 A ∈ t := by
  simp only [List.any_eq_true, exclusiveTo, Bool.or_eq_true, beq_iff_eq]
  constructor
  · rintro ⟨c, hc, rfl | rfl⟩
    · exact .inl hc
    · exact .inr hc
  · rintro (hc | hc)
    · exact ⟨_, hc, .inl rfl⟩
    · exact ⟨_, hc, .inr rfl⟩

/-- Guess mode takes Standard where no character is exclusive to UrlSafe (R125). -/
theorem selectAlphabet_guess_standard {t : List Byte} (hu : ¬ (0x2D#8 ∈ t ∨ 0x5F#8 ∈ t)) :
    selectAlphabet .guess t = .ok .standard := by
  have hu : ¬ t.any (exclusiveTo .urlSafe) = true := mt any_exclusiveTo_iff.1 hu
  simp [selectAlphabet_guess, hu]

/-- It takes UrlSafe where characters are exclusive to UrlSafe only. -/
theorem selectAlphabet_guess_urlSafe {t : List Byte} (hu : 0x2D#8 ∈ t ∨ 0x5F#8 ∈ t)
    (hs : ¬ (0x2B#8 ∈ t ∨ 0x2F#8 ∈ t)) : selectAlphabet .guess t = .ok .urlSafe := by
  have hu : t.any (exclusiveTo .urlSafe) = true := any_exclusiveTo_iff.2 hu
  have hs : ¬ t.any (exclusiveTo .standard) = true := mt any_exclusiveTo_iff.1 hs
  simp [selectAlphabet_guess, hu, hs]

/-- It refuses a text with characters of both exclusive sets. -/
theorem selectAlphabet_guess_both {t : List Byte} (hu : 0x2D#8 ∈ t ∨ 0x5F#8 ∈ t)
    (hs : 0x2B#8 ∈ t ∨ 0x2F#8 ∈ t) : selectAlphabet .guess t = .error .invalidBase64 := by
  have hu : t.any (exclusiveTo .urlSafe) = true := any_exclusiveTo_iff.2 hu
  have hs : t.any (exclusiveTo .standard) = true := any_exclusiveTo_iff.2 hs
  simp [selectAlphabet_guess, hu, hs]

/-- Any error but ContractViolation changes STATUS alone. -/
theorem raiseError_of_ne_contract {e : Err} (he : e ≠ .contractViolation) (s : State)
    (au : Option Alphabet) :
    raiseError s e au = { s with status := statusValue (errCode e) false au } := by
  simp [raiseError_eq, he]

/-- B64.DEC on a text where a stage raises: STATUS alone changes (R206). -/
theorem b64DecCommand_of_error {mode : AlphMode} {s : State} {t : List Byte} {e : Err}
    {au : Option Alphabet} (hl : s.txtLen.toNat ≤ 256) (ht : s.textBytes = some t)
    (hd : decodeText mode t = .error (e, au)) :
    b64DecCommand mode s = .next { s with status := statusValue (errCode e) false au } := by
  have he : e ≠ .contractViolation := by rcases decodeText_error hd with rfl | rfl <;> decide
  have hend : decEnding s mode t = .raised e au := by simp [decEnding, hd]
  rw [b64DecCommand_eq, withText_of_text hl ht, hend, commit_raised, raiseError_of_ne_contract he]

/-- Where the decode itself raises, STATUS reports the alphabet selected before it (R32). -/
theorem b64DecCommand_of_b64dec_error {mode : AlphMode} {s : State} {t : List Byte} {e : Err}
    {A : Alphabet} (hl : s.txtLen.toNat ≤ 256) (ht : s.textBytes = some t)
    (hs : selectAlphabet mode t = .ok A) (he : b64dec A t = .error e) :
    b64DecCommand mode s = .next { s with status := statusValue (errCode e) false (some A) } :=
  b64DecCommand_of_error hl ht (decodeText_error_iff.2 (.inr ⟨A, hs, he, rfl⟩))

/-- STATUS of an error as a number: DONE and AU above the code of the error (R24, R205). -/
theorem statusValue_standard (e : BitVec 4) :
    statusValue e false (some .standard) = 0xA0#8 ||| e.setWidth 8 := by
  revert e
  decide

theorem statusValue_urlSafe (e : BitVec 4) :
    statusValue e false (some .urlSafe) = 0xC0#8 ||| e.setWidth 8 := by
  revert e
  decide

/-- Settles O32: by the alphabet each mode selects, then the error of the decode. -/
theorem b64DecodeFailure : Obligations.B64DecodeFailure := by
  intro s t e hl ht
  simp only [← statusValue_standard, ← statusValue_urlSafe]
  refine ⟨fun he => ⟨?_, fun hu => ?_⟩, fun he => ⟨?_, fun hu hs => ?_⟩, fun hu hs => ?_⟩
  · exact b64DecCommand_of_b64dec_error (mode := .standard) hl ht rfl he
  · exact b64DecCommand_of_b64dec_error hl ht (selectAlphabet_guess_standard hu) he
  · exact b64DecCommand_of_b64dec_error (mode := .urlSafe) hl ht rfl he
  · exact b64DecCommand_of_b64dec_error hl ht (selectAlphabet_guess_urlSafe hu hs) he
  · exact b64DecCommand_of_error hl ht
      (decodeText_error_iff.2 (.inl ⟨selectAlphabet_guess_both hu hs, rfl⟩))

end Sys2Proof.Machine
end

section
/-! The rules of the bus primitives: where the registers stand, what a read gives, what a write
stores, and where each access is a bus error. -/

namespace Sys2Proof.Machine

/-! ## Where the registers stand (R52) -/

/-- Window offset of the one word of a control register; `none` for the arrays and the reserved
offsets. -/
def registerOffset : Region → Option Nat
  | .cmd => some 0x000
  | .status => some 0x004
  | .flags => some 0x008
  | .wc => some 0x00C
  | .crc => some 0x010
  | .txtLen => some 0x014
  | .acct | .buf | .txt | .reserved => none

/-- No control register stands from 0x018 on. -/
theorem registerOffset_region_of_ge {off : Nat} (h : 0x018 ≤ off) :
    registerOffset (region off) = none := by
  unfold region
  simp only [show ¬ off < 4 by omega, show ¬ off < 8 by omega, show ¬ off < 12 by omega,
    show ¬ off < 16 by omega, show ¬ off < 20 by omega, show ¬ off < 24 by omega, if_false]
  split_ifs <;> rfl

/-- A control register takes the four offsets from its own on. -/
theorem region_eq_register_iff {r : Region} {o : Nat} (hr : registerOffset r = some o) (off : Nat) :
    region off = r ↔ o ≤ off ∧ off < o + 4 := by
  have below : o + 4 ≤ 0x018 ∧ ∀ c, c < 0x018 → (region c = r ↔ o ≤ c ∧ c < o + 4) := by
    cases r <;> cases hr <;> decide
  obtain ⟨ho, hiff⟩ := below
  by_cases h : off < 0x018
  · exact hiff off h
  · refine iff_of_false ?_ (by omega)
    rintro rfl
    rw [registerOffset_region_of_ge (by omega)] at hr
    cases hr

/-- An aligned access to a control register is at the register's offset. -/
theorem eq_registerOffset_of_aligned {r : Region} {o off : Nat} (hr : registerOffset r = some o)
    (h4 : off % 4 = 0) (h : region off = r) : off = o := by
  have hoff := (region_eq_register_iff hr off).1 h
  have ho : o % 4 = 0 := by cases r <;> cases hr <;> rfl
  omega

/-! ## Bit fields -/

/-- Reserved bits above a register's fields read 0 (R54). -/
theorem setWidth_add_eq_zero_append {n : Nat} (m : Nat) (x : BitVec n) :
    x.setWidth (m + n) = 0#m ++ x := by
  apply BitVec.eq_of_toNat_eq
  simp [Nat.mod_eq_of_lt (x.isLt.trans_le (Nat.pow_le_pow_right Nat.two_pos (Nat.le_add_left n m)))]

/-- Storing a register's `n` defined bits and reading them back masks the value (R54). -/
theorem setWidth_setWidth_eq_and {n : Nat} (hn : n ≤ 32) (v : Word) :
    (v.setWidth n).setWidth 32 = v &&& BitVec.ofNat 32 (2 ^ n - 1) := by
  have hpow : 2 ^ n ≤ 2 ^ 32 := Nat.pow_le_pow_right Nat.two_pos hn
  have hmask : (2 ^ n - 1) % 2 ^ 32 = 2 ^ n - 1 :=
    Nat.mod_eq_of_lt ((Nat.sub_one_lt_of_lt (Nat.two_pow_pos n)).trans_le hpow)
  have hmod : v.toNat % 2 ^ n % 2 ^ 32 = v.toNat % 2 ^ n :=
    Nat.mod_eq_of_lt ((Nat.mod_lt _ (Nat.two_pow_pos n)).trans_le hpow)
  apply BitVec.eq_of_toNat_eq
  rw [BitVec.toNat_and, BitVec.toNat_ofNat, hmask, Nat.and_two_pow_sub_one_eq_mod,
    BitVec.toNat_setWidth, BitVec.toNat_setWidth, hmod]

/-! ## Byte lanes (R56) -/

theorem splitLanes_getElem? (v : Word) (k : Fin 4) :
    (splitLanes v)[(k : Nat)]? = some (v.extractLsb' (8 * k) 8) := by
  fin_cases k <;> rfl

/-- Each of four appended bytes stands in its own lane. -/
theorem extractLsb'_append_bytes (b3 b2 b1 b0 : Byte) :
    (b3 ++ b2 ++ b1 ++ b0).extractLsb' 0 8 = b0 ∧ (b3 ++ b2 ++ b1 ++ b0).extractLsb' 8 8 = b1 ∧
      (b3 ++ b2 ++ b1 ++ b0).extractLsb' 16 8 = b2 ∧
      (b3 ++ b2 ++ b1 ++ b0).extractLsb' 24 8 = b3 := by
  have drop {w : Nat} (x : BitVec w) (b : Byte) (n : Nat) :
      (x ++ b).extractLsb' (n + 8) 8 = x.extractLsb' n 8 :=
    BitVec.extractLsb'_append_eq_of_le (Nat.le_add_left 8 n)
  refine ⟨BitVec.extractLsb'_append_eq_right, ?_, ?_, ?_⟩
  · rw [drop _ _ 0]
    exact BitVec.extractLsb'_append_eq_right
  · rw [drop _ _ 8, drop _ _ 0]
    exact BitVec.extractLsb'_append_eq_right
  · rw [drop _ _ 16, drop _ _ 8]
    exact BitVec.extractLsb'_append_eq_left

theorem extractLsb'_joinLanes (bs : List Byte) (k : Fin 4) :
    (joinLanes bs).extractLsb' (8 * k) 8 = bs.getD k 0#8 := by
  obtain ⟨h0, h1, h2, h3⟩ :=
    extractLsb'_append_bytes (bs.getD 3 0#8) (bs.getD 2 0#8) (bs.getD 1 0#8) (bs.getD 0 0#8)
  match k with
  | 0 => exact h0
  | 1 => exact h1
  | 2 => exact h2
  | 3 => exact h3

/-- Storing the four lanes stores four bytes, lane 0 first. -/
theorem Memory.writeBytes_splitLanes (m : Memory) (off : Nat) (v : Word) :
    m.writeBytes off (splitLanes v) =
      (((m.write off (v.extractLsb' 0 8)).write (off + 1) (v.extractLsb' 8 8)).write (off + 2)
        (v.extractLsb' 16 8)).write (off + 3) (v.extractLsb' 24 8) := rfl

/-! ## What a read gives -/

/-- The word a 4-byte read gives at an aligned offset: a register's fields with reserved bits 0 (R23,
R54), or the four bytes of an array word (R56); `none` where it gives none. -/
def State.wordAt (s : State) (off : Nat) : Option Word :=
  match region off with
  | .cmd => some 0#32
  | .status => some (s.status.setWidth 32)
  | .flags => some (s.flags.setWidth 32)
  | .wc => some (s.wc.setWidth 32)
  | .crc => some (s.crc.setWidth 32)
  | .txtLen => some (s.txtLen.setWidth 32)
  | .acct | .buf | .txt => (s.mem.readBytes off 4).map joinLanes
  | .reserved => none

/-- No answer given before is read. -/
@[simp] theorem State.wordAt_addAnswer (s : State) (a : Answer) (off : Nat) :
    (s.addAnswer a).wordAt off = s.wordAt off := rfl

theorem State.wordAt_of_array (s : State) {off : Nat} (ha : isArrayRegion (region off) = true) :
    s.wordAt off = (s.mem.readBytes off 4).map joinLanes := by
  unfold State.wordAt
  cases hr : region off
  case acct => rfl
  case buf => rfl
  case txt => rfl
  all_goals rw [hr] at ha; cases ha

theorem answerWith_next_iff {s t : State} {a : Answer} :
    answerWith s a = .next t ↔ t = s.addAnswer a := by
  simp [answerWith, eq_comm]

/-- Everything a 4-byte read can answer. -/
theorem busRead32_next_iff {off : Nat} {s t : State} :
    busRead32 off s = .next t ↔
      off % 4 = 0 ∧ ∃ v, s.wordAt off = some v ∧ t = s.addAnswer (.word v) := by
  unfold busRead32 State.wordAt
  simp only [wordPlaced_iff]
  by_cases h4 : off % 4 = 0
  · cases region off
    case acct => cases s.mem.readBytes off 4 <;> simp [h4, answerWith_next_iff]
    case buf => cases s.mem.readBytes off 4 <;> simp [h4, answerWith_next_iff]
    case txt => cases s.mem.readBytes off 4 <;> simp [h4, answerWith_next_iff]
    all_goals simp [h4, answerWith_next_iff]
  · simp [h4]

theorem busRead32_of_wordAt {off : Nat} {s : State} {v : Word} (h4 : off % 4 = 0)
    (h : s.wordAt off = some v) : busRead32 off s = .next (s.addAnswer (.word v)) :=
  busRead32_next_iff.2 ⟨h4, v, h, rfl⟩

/-! ## What a write stores -/

theorem busWrite32_flags (v : Word) (s : State) :
    busWrite32 0x008 v s = .next ((s.setFlags (v.setWidth 2)).addAnswer .written) := rfl

theorem busWrite32_wc (v : Word) (s : State) :
    busWrite32 0x00C v s = .next ((s.setWc (v.setWidth 8)).addAnswer .written) := rfl

theorem busWrite32_crc (v : Word) (s : State) :
    busWrite32 0x010 v s = .next ((s.setCrc (v.setWidth 16)).addAnswer .written) := rfl

theorem busWrite32_txtLen (v : Word) (s : State) :
    busWrite32 0x014 v s = .next ((s.setTxtLen (v.setWidth 9)).addAnswer .written) := rfl

theorem busWrite8_of_array {off : Nat} (ha : isArrayRegion (region off) = true) (b : Byte)
    (s : State) : busWrite8 off b s = .next ((s.setMem (s.mem.write off b)).addAnswer .written) :=
  busWrite8_next_iff.2 ⟨ha, rfl⟩

theorem busWrite32_of_array {off : Nat} (h4 : off % 4 = 0) (ha : isArrayRegion (region off) = true)
    (v : Word) (s : State) :
    busWrite32 off v s =
      .next ((s.setMem (s.mem.writeBytes off (splitLanes v))).addAnswer .written) := by
  unfold busWrite32
  rw [if_pos ((wordPlaced_iff off).2 h4)]
  cases hr : region off
  case acct => rfl
  case buf => rfl
  case txt => rfl
  all_goals rw [hr] at ha; cases ha

/-! ## Where an access is a bus error (R57) -/

/-- A command can stop the machine, but not with a bus error. -/
theorem runCommand_ne_busError (w : Word) (s : State) : runCommand w s ≠ .fault .busError := by
  cases hd : decode w with
  | ok i =>
    rw [runCommand_of_decode hd]
    intro h
    obtain ⟨-, -, hf⟩ := exec_fault_iff.1 h
    cases hf
  | error r => simp [runCommand_of_illegal hd]

theorem acknowledge_fault_iff {o : Host.Outcome State Fault Refusal} {f : Fault} :
    acknowledge o = .fault f ↔ o = .fault f := by
  cases o <;> simp [acknowledge]

theorem busRead8_busError_iff {off : Nat} {s : State} :
    busRead8 off s = .fault .busError ↔ ¬ isArrayRegion (region off) = true := by
  unfold busRead8
  split
  · rename_i h
    cases s.mem.read off <;> simp [h, answerWith]
  · rename_i h
    simp [h]

theorem busWrite8_busError_iff {off : Nat} {b : Byte} {s : State} :
    busWrite8 off b s = .fault .busError ↔ ¬ isArrayRegion (region off) = true := by
  unfold busWrite8
  split <;> rename_i h <;> simp [h, acknowledge]

theorem busRead32_busError_iff {off : Nat} {s : State} :
    busRead32 off s = .fault .busError ↔ ¬ (off % 4 = 0 ∧ region off ≠ .reserved) := by
  unfold busRead32
  simp only [wordPlaced_iff]
  by_cases h4 : off % 4 = 0
  · cases region off
    case acct => cases s.mem.readBytes off 4 <;> simp [h4, answerWith]
    case buf => cases s.mem.readBytes off 4 <;> simp [h4, answerWith]
    case txt => cases s.mem.readBytes off 4 <;> simp [h4, answerWith]
    all_goals simp [h4, answerWith]
  · simp [h4]

theorem busWrite32_busError_iff {off : Nat} {v : Word} {s : State} :
    busWrite32 off v s = .fault .busError ↔
      ¬ (off % 4 = 0 ∧ region off ≠ .reserved ∧ region off ≠ .status) := by
  unfold busWrite32
  simp only [wordPlaced_iff]
  by_cases h4 : off % 4 = 0
  · cases region off
    case cmd => simp [h4, acknowledge_fault_iff, runCommand_ne_busError]
    all_goals simp [h4, acknowledge]
  · simp [h4]

end Sys2Proof.Machine
end

section
/-! Which access reaches the block, and at which window offset (R51, R61). -/

namespace Sys2Proof.Machine

theorem placeOffset_offset {off : Nat} (h : off < 0x200) : placeOffset (.offset off) = some off :=
  if_pos h

theorem placeOffset_base_add {off : Nat} (h : off < 0x200) :
    placeOffset (.address (Config.base + off)) = some off := by
  simp [placeOffset, h]

theorem placeOffset_outside {addr : Nat} (h : addr < Config.base ∨ Config.base + 0x200 ≤ addr) :
    placeOffset (.address addr) = none :=
  if_neg fun ⟨hle, hlt⟩ => h.elim (Nat.not_lt_of_le hle) (Nat.not_le_of_lt hlt)

/-- An access inside the window is an access at its window offset. -/
theorem busAccess_of_placeOffset {a : BusAccess} {off : Nat}
    (h : placeOffset (accessPlace a) = some off) (s : State) :
    busAccess a s = accessAt a off s := by
  simp [busAccess, h]

/-- An access outside the window does not reach the block. -/
theorem busAccess_of_outside {a : BusAccess} (h : placeOffset (accessPlace a) = none) (s : State) :
    busAccess a s = .next s := by
  simp [busAccess, h]

/-- A step with an access at the port is that access, on the state without it. -/
theorem step_access (s : State) (a : BusAccess) (rest : List HostEvent) :
    step { s with port := .access a :: rest } = busAccess a { s with port := rest } := rfl

theorem step_access_at {a : BusAccess} {off : Nat} (h : placeOffset (accessPlace a) = some off)
    (s : State) (rest : List HostEvent) :
    step { s with port := .access a :: rest } = accessAt a off { s with port := rest } :=
  (step_access s a rest).trans (busAccess_of_placeOffset h _)

/-- Settles O6: each of the four accesses is `accessAt` its offset. -/
theorem stepDeliversTheNextAccess : Obligations.StepDeliversTheNextAccess := by
  intro s rest off b v h
  have hp := placeOffset_offset h
  exact ⟨step_access_at (a := .rd8 _) hp s rest, step_access_at (a := .rd32 _) hp s rest,
    step_access_at (a := .wr8 _ b) hp s rest, step_access_at (a := .wr32 _ v) hp s rest⟩

/-- The four kinds of access (R53), each a function of the place it goes to. -/
def accessKinds (b : Byte) (v : Word) : List (Place → BusAccess) :=
  [.rd8, .rd32, fun p => .wr8 p b, fun p => .wr32 p v]

/-- A kind of access goes where it is sent, and what it does at an offset does not depend on how the
host named its place. -/
theorem accessKinds_place {b : Byte} {v : Word} {k : Place → BusAccess} (hk : k ∈ accessKinds b v) :
    (∀ p, accessPlace (k p) = p) ∧ ∀ p q off s, accessAt (k p) off s = accessAt (k q) off s := by
  simp only [accessKinds, List.mem_cons, List.not_mem_nil, or_false] at hk
  rcases hk with rfl | rfl | rfl | rfl <;> exact ⟨fun _ => rfl, fun _ _ _ _ => rfl⟩

/-- Settles O8: by the window offset of each place, for every kind of access. -/
theorem hostAddressIsBasePlusOffset : Obligations.HostAddressIsBasePlusOffset := by
  refine ⟨Nat.mul_mod_right .., fun s rest b v k hk => ?_⟩
  obtain ⟨hplace, hkind⟩ := accessKinds_place (b := b) (v := v) hk
  constructor
  · intro off h
    rw [step_access_at ((congrArg placeOffset (hplace _)).trans (placeOffset_base_add h)),
      step_access_at ((congrArg placeOffset (hplace _)).trans (placeOffset_offset h))]
    exact hkind ..
  · intro addr h
    exact (step_access ..).trans
      (busAccess_of_outside ((congrArg placeOffset (hplace _)).trans (placeOffset_outside h)) _)

end Sys2Proof.Machine
end

section
/-! The host's reads and writes (R54 to R58). -/

namespace Sys2Proof.Machine

/-- Settles O12: the regions of each bus error, as offsets. -/
theorem busErrorExactlyWhereStated : Obligations.BusErrorExactlyWhereStated := by
  intro s b v off h
  rw [busRead8_busError_iff, busWrite8_busError_iff, busRead32_busError_iff, busWrite32_busError_iff,
    isArrayRegion_iff, ne_eq, ne_eq, region_eq_reserved_iff,
    region_eq_register_iff (r := .status) rfl]
  dsimp only
  refine ⟨?_, ?_, ?_, ?_⟩ <;> omega

/-- Settles O11: no byte access and no unaligned word below the arrays, and each register's rule. -/
theorem controlRegisterAccess : Obligations.ControlRegisterAccess := by
  intro s b v
  refine ⟨fun off h => ?_, ?_, ?_, ?_, ?_, ?_, ?_, ?_, ?_, ?_, ?_⟩
  · have hna : ¬ isArrayRegion (region off) = true := by rw [isArrayRegion_iff]; omega
    exact ⟨busRead8_busError_iff.2 hna, busWrite8_busError_iff.2 hna, fun h4 =>
      ⟨busRead32_busError_iff.2 fun ⟨h4', _⟩ => h4 h4',
        busWrite32_busError_iff.2 fun ⟨h4', _⟩ => h4 h4'⟩⟩
  · rw [busWrite32_flags, BitVec.setWidth_eq_extractLsb' (by decide)]
    rfl
  · rw [busWrite32_wc, BitVec.setWidth_eq_extractLsb' (by decide)]
    rfl
  · rw [busWrite32_crc, BitVec.setWidth_eq_extractLsb' (by decide)]
    rfl
  · rw [busWrite32_txtLen, BitVec.setWidth_eq_extractLsb' (by decide)]
    rfl
  · exact busRead32_of_wordAt rfl rfl
  · exact busRead32_of_wordAt rfl (congrArg some (setWidth_add_eq_zero_append 24 s.status))
  · exact busRead32_of_wordAt rfl (congrArg some (setWidth_add_eq_zero_append 30 s.flags))
  · exact busRead32_of_wordAt rfl (congrArg some (setWidth_add_eq_zero_append 24 s.wc))
  · exact busRead32_of_wordAt rfl (congrArg some (setWidth_add_eq_zero_append 16 s.crc))
  · exact busRead32_of_wordAt rfl (congrArg some (setWidth_add_eq_zero_append 23 s.txtLen))

/-- Settles O13: reading joins the lanes, writing splits the value into them. -/
theorem arrayWordsTravelInLittleEndianLanes : Obligations.ArrayWordsTravelInLittleEndianLanes := by
  intro s off h4 hoff
  have ha : isArrayRegion (region off) = true := (isArrayRegion_iff off).2 hoff
  refine ⟨fun b hb => ⟨⟨joinLanes (List.ofFn b), fun k => ?_, ?_⟩, fun k => ?_⟩, fun v =>
    ⟨_, busWrite32_of_array h4 ha v s, fun k => ?_, fun a => ?_⟩⟩
  · rw [extractLsb'_joinLanes, List.getD_eq_getElem?_getD, List.getElem?_ofFn, dif_pos k.isLt]
    rfl
  · have hbs : s.mem.readBytes off 4 = some (List.ofFn b) :=
      (Memory.readBytes_eq_some_iff ..).2
        ⟨List.length_ofFn, fun i hi => by rw [List.getElem?_ofFn, dif_pos hi, ← hb ⟨i, hi⟩]⟩
    exact busRead32_of_wordAt h4 (by rw [State.wordAt_of_array s ha, hbs]; rfl)
  · exact busRead8_next_iff.2 ⟨by rwa [region_add_of_aligned h4 k.isLt ha], b k, hb k, rfl⟩
  · exact (Memory.read_writeBytes_inside s.mem (splitLanes v) k.isLt).trans
      (splitLanes_getElem? v k)
  · exact Memory.read_writeBytes_outside s.mem (splitLanes v)

/-- Settles O60: the word write stores its lanes in order. -/
theorem wordWriteIsFourByteWrites : Obligations.WordWriteIsFourByteWrites := by
  intro s off v h4 hoff
  have ha : isArrayRegion (region off) = true := (isArrayRegion_iff off).2 (by omega)
  have lane (k : Nat) (hk : k < 4) : isArrayRegion (region (off + k)) = true := by
    rwa [region_add_of_aligned h4 hk ha]
  refine ⟨_, _, _, _, _, busWrite32_of_array h4 ha v s, busWrite8_of_array ha _ _,
    busWrite8_of_array (lane 1 (by decide)) _ _, busWrite8_of_array (lane 2 (by decide)) _ _,
    busWrite8_of_array (lane 3 (by decide)) _ _, ?_⟩
  simp only [State.addAnswer, State.setMem, Memory.writeBytes_splitLanes]

/-- Settles O15: what a write stores is what the read right after looks at. -/
theorem readGivesTheLatestWrite : Obligations.ReadGivesTheLatestWrite := by
  refine ⟨fun s off b hoff => ?_, fun s v =>
    ⟨⟨_, busWrite32_flags v s, ?_⟩, ⟨_, busWrite32_wc v s, ?_⟩, ⟨_, busWrite32_crc v s, ?_⟩,
      ⟨_, busWrite32_txtLen v s, ?_⟩⟩⟩
  · have ha : isArrayRegion (region off) = true := (isArrayRegion_iff off).2 (by omega)
    have hw := busWrite8_of_array ha b s
    exact ⟨_, hw, busRead8_next_iff.2 ⟨ha, b, read_of_busWrite8 hw, rfl⟩⟩
  · exact busRead32_of_wordAt rfl (congrArg some (setWidth_setWidth_eq_and (n := 2) (by decide) v))
  · exact busRead32_of_wordAt rfl (congrArg some (setWidth_setWidth_eq_and (n := 8) (by decide) v))
  · exact busRead32_of_wordAt rfl (congrArg some (setWidth_setWidth_eq_and (n := 16) (by decide) v))
  · exact busRead32_of_wordAt rfl (congrArg some (setWidth_setWidth_eq_and (n := 9) (by decide) v))

/-- Settles O14: by what each access does when it is answered. -/
theorem onlyCommandWritesHaveSideEffects : Obligations.OnlyCommandWritesHaveSideEffects := by
  refine ⟨fun s t off => ⟨fun h => ?_, fun h => ?_⟩, fun s t off b h => ?_, fun s t off v h0 h => ?_⟩
  · obtain ⟨ha, b, hb, rfl⟩ := busRead8_next_iff.1 h
    exact ⟨_, rfl, busRead8_next_iff.2 ⟨ha, b, hb, rfl⟩⟩
  · obtain ⟨h4, v, hv, rfl⟩ := busRead32_next_iff.1 h
    exact ⟨_, rfl, busRead32_of_wordAt h4 hv⟩
  · have hread := read_of_busWrite8 h
    obtain ⟨-, rfl⟩ := busWrite8_next_iff.1 h
    exact ⟨rfl, hread, fun a => Memory.read_write_ne s.mem b⟩
  · obtain ⟨hp, hw⟩ := busWrite32_next h
    have h4 := (wordPlaced_iff off).1 hp
    rcases hw with ⟨hr, -⟩ | ⟨hr, rfl⟩ | ⟨hr, rfl⟩ | ⟨hr, rfl⟩ | ⟨hr, rfl⟩ | ⟨ha, rfl⟩
    · exact absurd (eq_registerOffset_of_aligned rfl h4 hr) h0
    on_goal 5 =>
      have hoff := (isArrayRegion_iff off).1 ha
      exact ⟨rfl, rfl, rfl, rfl, fun _ => rfl, fun _ => rfl, fun _ => rfl, fun _ => rfl,
        fun hlt => absurd hlt (by omega),
        fun a => Memory.read_writeBytes_outside s.mem (splitLanes v)⟩
    all_goals
      obtain rfl := eq_registerOffset_of_aligned rfl h4 hr
      simp

end Sys2Proof.Machine
end

section
/-! The command word (R70 to R74, R77): a word decodes to a command exactly when it is that command's
encoding, and that is its one row of the opcode map. -/

namespace Sys2Proof.Machine

/-! ## The decoder -/

/-- A word with RSV = 0 is made of its other two fields (R71). -/
theorem wordOfFields_of_wordRsv {w : Word} (h : wordRsv w = 0#26) :
    wordOfFields (wordOp w) (wordAlph w) = w := by
  have hw : wordRsv w ++ wordAlph w ++ wordOp w = w := by
    unfold wordRsv wordAlph wordOp
    rw [BitVec.extractLsb'_append_extractLsb'_eq_extractLsb' (by rfl),
      BitVec.extractLsb'_append_extractLsb'_eq_extractLsb' (by rfl), BitVec.extractLsb'_eq_self]
  rwa [h] at hw

theorem plainOp_ok_iff {a : BitVec 2} {i j : Instr} : plainOp a i = .ok j ↔ a = 0b00#2 ∧ j = i := by
  unfold plainOp
  split <;> simp [*, eq_comm]

theorem encodeOp_ok_iff {a : BitVec 2} {std url j : Instr} :
    encodeOp a std url = .ok j ↔ (a = 0b00#2 ∧ j = std) ∨ (a = 0b01#2 ∧ j = url) := by
  unfold encodeOp
  split_ifs <;> simp [*, eq_comm]

theorem decodeOp_ok_iff {a : BitVec 2} {std url guess j : Instr} :
    decodeOp a std url guess = .ok j ↔
      (a = 0b00#2 ∧ j = std) ∨ (a = 0b01#2 ∧ j = url) ∨ (a = 0b10#2 ∧ j = guess) := by
  unfold decodeOp
  split_ifs <;> simp [*, eq_comm]

/-- The OP and ALPH fields of a word that decodes are those of its command (R72, R73). -/
theorem wordOfFields_of_decode {w : Word} {i : Instr} (h : decode w = .ok i) :
    wordRsv w = 0#26 ∧ wordOfFields (wordOp w) (wordAlph w) = encode i := by
  have op {n : Nat} (hn : (wordOp w).toNat = n) : wordOp w = BitVec.ofNat 4 n := by
    rw [← hn, BitVec.ofNat_toNat, BitVec.setWidth_eq]
  unfold decode at h
  split_ifs at h with hr
  refine ⟨not_not.1 hr, ?_⟩
  split at h
  case h_1 hn | h_2 hn | h_5 hn | h_6 hn =>
    obtain ⟨ha, rfl⟩ := plainOp_ok_iff.1 h
    rw [op hn, ha]
    rfl
  case h_3 hn | h_7 hn =>
    rcases encodeOp_ok_iff.1 h with ⟨ha, rfl⟩ | ⟨ha, rfl⟩ <;> rw [op hn, ha] <;> rfl
  case h_4 hn | h_8 hn =>
    rcases decodeOp_ok_iff.1 h with ⟨ha, rfl⟩ | ⟨ha, rfl⟩ | ⟨ha, rfl⟩ <;> rw [op hn, ha] <;> rfl
  case h_9 => cases h

theorem encode_of_decode {w : Word} {i : Instr} (h : decode w = .ok i) : encode i = w := by
  obtain ⟨hr, hw⟩ := wordOfFields_of_decode h
  rw [← hw, wordOfFields_of_wordRsv hr]

theorem decode_encode (i : Instr) : decode (encode i) = .ok i := by
  cases i <;> decide

/-- The decoder accepts the encodings of the commands and nothing else (R74). -/
theorem decode_ok_iff {w : Word} {i : Instr} : decode w = .ok i ↔ encode i = w :=
  ⟨encode_of_decode, fun h => h ▸ decode_encode i⟩

/-- Settles O2: the two directions of `decode_ok_iff`. -/
theorem decodeAndEncodeAreInverse : Obligations.DecodeAndEncodeAreInverse :=
  ⟨fun i _ => decode_encode i, fun _ _ => encode_of_decode⟩

/-! ## The opcode map -/

theorem encode_mem_commandTable (i : Instr) : (encode i, i) ∈ commandTable := by
  cases i <;> decide

/-- The row of a command holds its encoding (R74). -/
theorem mem_commandTable_iff {w : Word} {i : Instr} : (w, i) ∈ commandTable ↔ encode i = w := by
  have rows : ∀ r ∈ commandTable, encode r.2 = r.1 := by decide
  exact ⟨rows (w, i), fun h => h ▸ encode_mem_commandTable i⟩

/-- Settles O1: both sides say that the word is the command's encoding. -/
theorem decodeAcceptsExactlyTheOpcodeMap : Obligations.DecodeAcceptsExactlyTheOpcodeMap :=
  fun _ _ => decode_ok_iff.trans mem_commandTable_iff.symm

/-- Settles O3: each word stands in its command's row of the map. -/
theorem writtenOutWordsDecode : Obligations.WrittenOutWordsDecode := by
  have row {w : Word} {i : Instr} : (w, i) ∈ commandTable → decode w = .ok i :=
    (decodeAcceptsExactlyTheOpcodeMap w i).2
  exact ⟨row (by decide), row (by decide), row (by decide), row (by decide), row (by decide)⟩

/-! ## Illegal words -/

/-- The words of the map are the encodings of the commands. -/
theorem mem_commandWords_iff {w : Word} :
    w ∈ commandTable.map Prod.fst ↔ ∃ i, encode i = w := by
  simp [← mem_commandTable_iff]

/-- A word outside the map is rejected by the decoder. -/
theorem decode_error_of_not_mem {w : Word} (h : w ∉ commandTable.map Prod.fst) :
    ∃ r, decode w = .error r := by
  cases hd : decode w with
  | error r => exact ⟨r, rfl⟩
  | ok i => exact absurd (mem_commandWords_iff.2 ⟨i, encode_of_decode hd⟩) h

/-- No command's fields are of a kind that R77 lists as illegal. -/
theorem encode_fields_legal (i : Instr) :
    ¬ (wordOp (encode i) = 0x0#4 ∨ 0x9 ≤ (wordOp (encode i)).toNat ∨ wordAlph (encode i) = 0b11#2 ∨
      (wordAlph (encode i) ≠ 0b00#2 ∧ wordOp (encode i) ∈ [0x1#4, 0x2#4, 0x5#4, 0x6#4]) ∨
      (wordAlph (encode i) = 0b10#2 ∧ wordOp (encode i) ∈ [0x3#4, 0x7#4]) ∨
      wordRsv (encode i) ≠ 0#26) := by
  cases i <;> decide

/-- An illegal word at CMD leaves STATUS 0x8F and the record, nothing else (R77, R202). -/
theorem runCommand_of_not_mem {w : Word} (h : w ∉ commandTable.map Prod.fst) (s : State) :
    runCommand w s = .next { s with status := 0x8F#8, violated := true } := by
  obtain ⟨r, hr⟩ := decode_error_of_not_mem h
  rw [runCommand_of_illegal hr, raiseError_eq, decide_eq_true rfl, Bool.or_true]
  rfl

/-- Settles O4: no encoding is of the listed kinds, and a word that is none is rejected. -/
theorem illegalWordsRaiseContractViolation : Obligations.IllegalWordsRaiseContractViolation := by
  constructor
  · intro w hkind hmem
    obtain ⟨i, rfl⟩ := mem_commandWords_iff.1 hmem
    exact encode_fields_legal i hkind
  · intro w s rest hw hp
    rw [step_of_event hp, deliver_commandEvent, runCommand_of_not_mem hw]
    rfl

/-! ## Mnemonics (R79) -/

/-- The mnemonics are distinct: each is that of the first command of the list that has it. -/
theorem find_mnemonic (i : Instr) :
    (allInstrs.find? fun j => decide ((mnemonic j).toList = (mnemonic i).toList)) = some i := by
  cases i <;> decide

/-- Any text that is a command's mnemonic once in upper case assembles to its word. -/
theorem assemble_of_toUpper {m : String} {i : Instr}
    (h : m.toList.map Char.toUpper = (mnemonic i).toList) : assemble m = some (encode i) := by
  rw [assemble, h, find_mnemonic, Option.map_some]

theorem mnemonic_map_toUpper (i : Instr) :
    (mnemonic i).toList.map Char.toUpper = (mnemonic i).toList := by
  cases i <;> decide

theorem mnemonic_map_toLower_toUpper (i : Instr) :
    ((mnemonic i).toList.map Char.toLower).map Char.toUpper = (mnemonic i).toList := by
  cases i <;> decide

/-- Settles O59: both letter cases read the same in upper case. -/
theorem mnemonicFixesTheWord : Obligations.MnemonicFixesTheWord := by
  intro i
  refine ⟨assemble_of_toUpper (mnemonic_map_toUpper i), assemble_of_toUpper ?_⟩
  rw [String.toList_ofList]
  exact mnemonic_map_toLower_toUpper i

end Sys2Proof.Machine
end

section
/-! The read and write sets of R75: what a command leaves as it was, and what it depends on. -/

namespace Sys2Proof.Machine

/-! ## The frame -/

/-- Stores over ranges change no byte outside them. -/
theorem Memory.StoredOver.read_outside {m m' : Memory} {rs : List (Nat × Nat)}
    (h : Memory.StoredOver m rs m') {c : Nat} (hc : ∀ r ∈ rs, ¬ (r.1 ≤ c ∧ c < r.1 + r.2)) :
    m'.read c = m.read c := by
  induction h with
  | nil => rfl
  | cons bs hn _ ih =>
    obtain ⟨hr, hrs⟩ := List.forall_mem_cons.1 hc
    rw [ih hrs, Memory.read_writeBytes_outside _ bs (by dsimp only at hr; omega)]

/-- The commands that write FLAGS and WC (R75). -/
def writesParsed : Instr → Bool
  | .bufParse | .addrDecStd | .addrDecUrl | .addrDecGuess => true
  | .crcCompute | .crcVerify | .b64EncStd | .b64EncUrl | .b64DecStd | .b64DecUrl | .b64DecGuess
  | .bufBuild | .addrEncStd | .addrEncUrl => false

theorem writesParsed_iff {i : Instr} :
    writesParsed i = true ↔ i ∈ [Instr.bufParse, .addrDecStd, .addrDecUrl, .addrDecGuess] := by
  cases i <;> decide

/-- The commands that write TXT_LEN (R75). -/
def writesTxtLen : Instr → Bool
  | .b64EncStd | .b64EncUrl | .addrEncStd | .addrEncUrl => true
  | .crcCompute | .crcVerify | .b64DecStd | .b64DecUrl | .b64DecGuess | .bufBuild | .bufParse
  | .addrDecStd | .addrDecUrl | .addrDecGuess => false

theorem writesTxtLen_iff {i : Instr} :
    writesTxtLen i = true ↔ i ∈ [Instr.b64EncStd, .b64EncUrl, .addrEncStd, .addrEncUrl] := by
  cases i <;> decide

/-- Besides array bytes, a command that succeeds stages CRC, TXT_LEN, or WC and FLAGS, where these are
in its write set (R75). -/
theorem endingOf_done_registers {i : Instr} {s u : State} {x : List Byte} {m : Bool}
    {au : Option Alphabet} (h : endingOf i s x = .done u m au) :
    (i = .crcCompute ∧ ∃ c, u = s.setCrc c) ∨ (∃ m, u = s.setMem m) ∨
      (writesTxtLen i = true ∧ ∃ m n, u = (s.setMem m).setTxtLen n) ∨
      (writesParsed i = true ∧ ∃ m w f, u = ((s.setMem m).setWc w).setFlags f) := by
  have dec {mode : AlphMode} (h : decEnding s mode x = .done u m au) : ∃ m, u = s.setMem m := by
    obtain ⟨A, b, -, rfl, -, -⟩ := decEnding_done h
    exact ⟨_, rfl⟩
  have addrDec {mode : AlphMode} (h : addrEnding s mode x = .done u m au) :
      ∃ m w f, u = ((s.setMem m).setWc w).setFlags f := by
    obtain ⟨A, b, p, -, -, rfl, -, -⟩ := addrEnding_done h
    exact ⟨_, _, _, rfl⟩
  cases i
  case crcCompute => cases h; exact .inl ⟨rfl, _, rfl⟩
  case crcVerify => cases h; exact .inr (.inl ⟨_, rfl⟩)
  case bufBuild => cases h; exact .inr (.inl ⟨_, rfl⟩)
  case b64DecStd => exact .inr (.inl (dec h))
  case b64DecUrl => exact .inr (.inl (dec h))
  case b64DecGuess => exact .inr (.inl (dec h))
  case b64EncStd | b64EncUrl | addrEncStd | addrEncUrl =>
    cases h
    exact .inr (.inr (.inl ⟨rfl, _, _, rfl⟩))
  case bufParse =>
    obtain ⟨p, -, rfl, -, -⟩ := parseEnding_done h
    exact .inr (.inr (.inr ⟨rfl, _, _, _, rfl⟩))
  case addrDecStd | addrDecUrl | addrDecGuess =>
    exact .inr (.inr (.inr ⟨rfl, addrDec h⟩))

/-- `t` has the registers of `s` outside the write set of `i`, and its port and answers; the record of a
ContractViolation is the text commands' to set (R75, R202). -/
def keepsRegisters (i : Instr) (s t : State) : Prop :=
  (i ≠ .crcCompute → t.crc = s.crc) ∧
    (writesParsed i = false → t.flags = s.flags ∧ t.wc = s.wc) ∧
    (writesTxtLen i = false → t.txtLen = s.txtLen) ∧
    (decodesText i = false → t.violated = s.violated) ∧ t.port = s.port ∧ t.answers = s.answers

theorem endingOf_done_keepsRegisters {i : Instr} {s u : State} {x : List Byte} {m : Bool}
    {au : Option Alphabet} (h : endingOf i s x = .done u m au) : keepsRegisters i s u := by
  rcases endingOf_done_registers h with ⟨hi, _, rfl⟩ | ⟨_, rfl⟩ | ⟨hi, _, _, rfl⟩ | ⟨hi, _, _, _, rfl⟩
  · exact ⟨fun hn => absurd hi hn, fun _ => ⟨rfl, rfl⟩, fun _ => rfl, fun _ => rfl, rfl, rfl⟩
  · exact ⟨fun _ => rfl, fun _ => ⟨rfl, rfl⟩, fun _ => rfl, fun _ => rfl, rfl, rfl⟩
  · exact ⟨fun _ => rfl, fun _ => ⟨rfl, rfl⟩, fun hn => absurd (hi.symm.trans hn) nofun,
      fun _ => rfl, rfl, rfl⟩
  · exact ⟨fun _ => rfl, fun hn => absurd (hi.symm.trans hn) nofun, fun _ => rfl, fun _ => rfl, rfl,
      rfl⟩

/-- An error keeps every register but STATUS, and the record unless it is a ContractViolation (R206). -/
theorem raiseError_keepsRegisters {i : Instr} {e : Err}
    (he : decodesText i = false → e ≠ .contractViolation) (s : State) (au : Option Alphabet) :
    keepsRegisters i s (raiseError s e au) := by
  refine ⟨fun _ => rfl, fun _ => ⟨rfl, rfl⟩, fun _ => rfl, fun hi => ?_, rfl, rfl⟩
  rw [raiseError_of_ne_contract (he hi)]

theorem exec_keepsRegisters {i : Instr} {s t : State} (h : exec i s = .next t) :
    keepsRegisters i s t := by
  rcases exec_next_iff.1 h with ⟨hd, -, rfl⟩ | ⟨-, x, -, rfl⟩
  · exact raiseError_keepsRegisters (fun hn => absurd (hd.symm.trans hn) nofun) s none
  · cases he : endingOf i s x with
    | raised e au => exact raiseError_keepsRegisters (fun _ => endingOf_raised_ne_contract he) s au
    | done u m au => exact (endingOf_done_keepsRegisters he : keepsRegisters i s u)

theorem exec_read_outside {i : Instr} {s t : State} (h : exec i s = .next t) {a : Nat}
    (ha : writesByte i a = false) : t.mem.read a = s.mem.read a := by
  rcases exec_next_cases h with ⟨e, au, -, rfl⟩ | ⟨u, m, au, -, hu, rfl⟩
  · rfl
  · refine hu.read_outside fun r hr hra => ?_
    exact absurd ((writesByte_iff.2 ⟨r, hr, hra⟩).symm.trans ha) nofun

/-- Settles O52: the frame of the registers and that of the arrays. -/
theorem commandsWriteOnlyTheirWriteSet : Obligations.CommandsWriteOnlyTheirWriteSet := by
  intro i s t h
  obtain ⟨hcrc, hparsed, hlen, hviolated, hport, hanswers⟩ := exec_keepsRegisters h
  rw [← Bool.not_eq_true, writesParsed_iff] at hparsed
  rw [← Bool.not_eq_true, writesTxtLen_iff] at hlen
  exact ⟨hcrc, hparsed, hlen, hviolated, hport, hanswers, fun _ => exec_read_outside h⟩

/-! ## Non-interference -/

/-- What a sequence write leaves at an offset depends on the memory before it only outside the bytes
written. -/
theorem Memory.read_writeBytes_congr {m m' : Memory} {a n c : Nat} {bs : List Byte}
    (hn : bs.length = n) (h : within a n c = false → m.read c = m'.read c) :
    (m.writeBytes a bs).read c = (m'.writeBytes a bs).read c := by
  by_cases hc : a ≤ c ∧ c < a + bs.length
  · have hi : c - a < bs.length := by omega
    rw [← Nat.add_sub_cancel' hc.1, Memory.read_writeBytes_inside m bs hi,
      Memory.read_writeBytes_inside m' bs hi]
  · rw [Memory.read_writeBytes_outside m bs (by omega), Memory.read_writeBytes_outside m' bs (by omega)]
    exact h (Bool.eq_false_iff.2 fun hw => hc (hn ▸ within_iff.1 hw))

/-- The bytes of a range just written are the same whatever the memory held before. -/
theorem Memory.read_writeBytes_within {a n c : Nat} {bs : List Byte} (hn : bs.length = n)
    (m m' : Memory) (hc : within a n c = true) :
    (m.writeBytes a bs).read c = (m'.writeBytes a bs).read c :=
  Memory.read_writeBytes_congr hn fun h => absurd (hc.symm.trans h) nofun

/-- So are the bytes of two ranges written one after the other. -/
theorem Memory.read_writeBytes_within_or {a n d k c : Nat} {bs cs : List Byte} (hn : bs.length = n)
    (hk : cs.length = k) (m m' : Memory) (hc : (within a n c || within d k c) = true) :
    ((m.writeBytes a bs).writeBytes d cs).read c = ((m'.writeBytes a bs).writeBytes d cs).read c :=
  Memory.read_writeBytes_congr hk fun h =>
    Memory.read_writeBytes_within hn m m' (by rwa [h, Bool.or_false] at hc)

/-- TXT_LEN is in the read set of the text commands (R75). -/
theorem agreeOnReads.txtLen_eq {i : Instr} {s u : State} (h : agreeOnReads i s u)
    (hd : decodesText i = true) : s.txtLen = u.txtLen := by
  obtain ⟨-, -, hlen, -⟩ := h
  exact hlen hd

/-- Two states that read alike on a command's read set hand it the same bytes. -/
theorem agreeOnReads.inputOf_eq {i : Instr} {s u : State} (h : agreeOnReads i s u) :
    inputOf i s = inputOf i u := by
  have ⟨hread, _⟩ := h
  have hr : readRange i s = readRange i u := by
    cases i
    case b64DecStd | b64DecUrl | b64DecGuess | addrDecStd | addrDecUrl | addrDecGuess =>
      simp only [readRange, h.txtLen_eq rfl]
    all_goals rfl
  rw [inputOf_eq_readBytes, inputOf_eq_readBytes, ← hr]
  refine Memory.readBytes_congr fun k hk => hread _ ?_
  rw [readsByte_eq_within, within_iff]
  omega

/-- `t` and `v` have the same values in the write set of `i` (R75). -/
def agreeOnWrites (i : Instr) (t v : State) : Prop :=
  (i = .crcCompute → v.crc = t.crc) ∧
    (writesParsed i = true → v.flags = t.flags ∧ v.wc = t.wc) ∧
    (writesTxtLen i = true → v.txtLen = t.txtLen) ∧
    ∀ a, writesByte i a = true → v.mem.read a = t.mem.read a

/-- Two endings that raise the same error, or that stage the same values in the write set of `i` with
the same MATCH and alphabet. -/
inductive Ending.Alike (i : Instr) : Ending → Ending → Prop where
  | raised (e : Err) (au : Option Alphabet) : Alike i (.raised e au) (.raised e au)
  | done {t v : State} (m : Bool) (au : Option Alphabet) (h : agreeOnWrites i t v) :
    Alike i (.done t m au) (.done v m au)

theorem decEnding_alike {i : Instr} {s u : State}
    (h : ∀ b, b.length = 36 → agreeOnWrites i (s.stageBuf b) (u.stageBuf b)) (mode : AlphMode)
    (x : List Byte) : Ending.Alike i (decEnding s mode x) (decEnding u mode x) := by
  unfold decEnding
  cases hd : decodeText mode x with
  | error p => exact .raised ..
  | ok p => exact .done _ _ (h _ (length_of_decodeText hd))

theorem addrEnding_alike {i : Instr} {s u : State}
    (h : ∀ b p, b.length = 36 → p.acct.length = 32 →
      agreeOnWrites i ((s.stageBuf b).stageParsed p) ((u.stageBuf b).stageParsed p))
    (mode : AlphMode) (x : List Byte) :
    Ending.Alike i (addrEnding s mode x) (addrEnding u mode x) := by
  unfold addrEnding
  cases hd : decodeText mode x with
  | error p => exact .raised ..
  | ok p =>
    obtain ⟨A, b⟩ := p
    dsimp only
    cases hp : parse36 b with
    | error e => exact .raised ..
    | ok q =>
      have hb := length_of_decodeText hd
      exact .done _ _ (h b q hb (length_acct_of_parse36 hb hp))

theorem parseEnding_alike {i : Instr} {s u : State} {b : List Byte} (hb : b.length = 36)
    (h : ∀ p, p.acct.length = 32 → agreeOnWrites i (s.stageParsed p) (u.stageParsed p)) :
    Ending.Alike i (parseEnding s b) (parseEnding u b) := by
  unfold parseEnding
  cases hp : parse36 b with
  | error e => exact .raised ..
  | ok p => exact .done _ _ (h p (length_acct_of_parse36 hb hp))

/-- A command makes the same of the same bytes in two states that agree on its read set. -/
theorem endingOf_alike {i : Instr} {s u : State} {x : List Byte} (h : agreeOnReads i s u)
    (hx : inputOf i s = some x) : Ending.Alike i (endingOf i s x) (endingOf i u x) := by
  obtain ⟨-, hcrc, -, hbuild⟩ := h
  have hl := length_of_inputOf hx
  have enc {A : Alphabet} {b : List Byte} (hb : b.length = 36) : (b64enc A b).length = 48 :=
    length_b64enc A 12 b hb
  have build (ha : x.length = 32) : (build36 s.bnc s.tst s.wc x).length = 36 := by
    rw [length_build36, ha]
  have built (hi : i ∈ [Instr.bufBuild, .addrEncStd, .addrEncUrl]) :
      build36 u.bnc u.tst u.wc x = build36 s.bnc s.tst s.wc x := by
    obtain ⟨hf, hw⟩ := hbuild hi
    simp only [State.bnc, State.tst, hf, hw]
  cases i
  case crcCompute => exact .done _ _ ⟨fun _ => rfl, nofun, nofun, nofun⟩
  case crcVerify =>
    simp only [endingOf, hcrc rfl]
    exact .done _ _ ⟨nofun, nofun, nofun, nofun⟩
  case b64EncStd | b64EncUrl =>
    exact .done _ _ ⟨nofun, nofun, fun _ => rfl, fun _ => Memory.read_writeBytes_within (enc hl) _ _⟩
  case b64DecStd | b64DecUrl | b64DecGuess =>
    refine decEnding_alike (fun b hb => ?_) _ _
    exact ⟨nofun, nofun, nofun, fun _ => Memory.read_writeBytes_within hb _ _⟩
  case bufBuild =>
    simp only [endingOf, built (by decide)]
    exact .done _ _
      ⟨nofun, nofun, nofun, fun _ => Memory.read_writeBytes_within (build hl) _ _⟩
  case bufParse =>
    exact parseEnding_alike hl fun p hp =>
      ⟨nofun, fun _ => ⟨rfl, rfl⟩, nofun, fun _ => Memory.read_writeBytes_within hp _ _⟩
  case addrEncStd | addrEncUrl =>
    simp only [endingOf, addrEncEnding, built (by decide)]
    exact .done _ _ ⟨nofun, nofun, fun _ => rfl,
      fun _ => Memory.read_writeBytes_within_or (build hl) (enc (build hl)) _ _⟩
  case addrDecStd | addrDecUrl | addrDecGuess =>
    refine addrEnding_alike (fun b p hb hp => ?_) _ _
    exact ⟨nofun, fun _ => ⟨rfl, rfl⟩, nofun, fun _ => Memory.read_writeBytes_within_or hb hp _ _⟩

/-- Alike endings leave the same STATUS, and on success the same values in the write set. -/
theorem Ending.Alike.commit_agrees {i : Instr} {e f : Ending} (h : Ending.Alike i e f) (s u : State) :
    (commit u f).status = (commit s e).status ∧
      (statusErr (commit s e).status = 0x0#4 → agreeOnWrites i (commit s e) (commit u f)) := by
  cases h with
  | raised e au =>
    refine ⟨rfl, fun hok => ?_⟩
    rw [commit_raised, raiseError_status, statusErr_statusValue] at hok
    exact absurd hok (errCode_ne_zero e)
  | done m au h => exact ⟨rfl, fun _ => h⟩

/-- A command run from two states that agree on its read set ends alike. -/
theorem exec_next_of_agreeOnReads {i : Instr} {s u t : State} (h : agreeOnReads i s u)
    (ht : exec i s = .next t) :
    ∃ v, exec i u = .next v ∧ v.status = t.status ∧
      (statusErr t.status = 0x0#4 → agreeOnWrites i t v) := by
  rcases exec_next_iff.1 ht with ⟨hd, hlong, rfl⟩ | ⟨hle, x, hx, rfl⟩
  · obtain ⟨hst, hok⟩ := (Ending.Alike.raised (i := i) .contractViolation none).commit_agrees s u
    exact ⟨_, exec_next_iff.2 (.inl ⟨hd, h.txtLen_eq hd ▸ hlong, rfl⟩), hst, hok⟩
  · obtain ⟨hst, hok⟩ := (endingOf_alike h hx).commit_agrees s u
    exact ⟨_, exec_of_input (fun hd => h.txtLen_eq hd ▸ hle hd) (h.inputOf_eq ▸ hx), hst, hok⟩

/-- Settles O53: the read set holds all that decides on a fault, and all that a command computes with. -/
theorem commandsDependOnlyOnTheirReadSet : Obligations.CommandsDependOnlyOnTheirReadSet := by
  intro i s u h
  constructor
  · intro f hf
    obtain ⟨hle, hx, rfl⟩ := exec_fault_iff.1 hf
    exact exec_fault_iff.2 ⟨fun hd => h.txtLen_eq hd ▸ hle hd, h.inputOf_eq ▸ hx, rfl⟩
  · intro t ht
    obtain ⟨v, hv, hst, hok⟩ := exec_next_of_agreeOnReads h ht
    refine ⟨v, hv, hst, fun herr => ?_⟩
    obtain ⟨hcrc, hparsed, hlen, hmem⟩ := hok herr
    exact ⟨hcrc, fun hi => hparsed (writesParsed_iff.2 hi), fun hi => hlen (writesTxtLen_iff.2 hi), hmem⟩

end Sys2Proof.Machine
end

section
/-! The Checksum Engine: the two commands, the linearity of crc16, its polynomial form, and what it
tells apart. -/

namespace Sys2Proof.Machine

/-! ## The commands -/

/-- Settles O17: CRC.COMPUTE is its ending over BUF[0..33]. -/
theorem crcComputeResult : Obligations.CrcComputeResult := by
  intro s b hb
  exact exec_of_input (i := .crcCompute) nofun hb

/-- CRC.VERIFY commits the state it ran from, with the comparison as MATCH. -/
theorem exec_crcVerify_of_sumBytes {s : State} {b : List Byte} (hb : s.sumBytes = some b) :
    exec .crcVerify s = .next (finish s (crc16 b = s.crc) none) :=
  exec_of_input (i := .crcVerify) nofun hb

/-- Settles O18: by the two values of the comparison. -/
theorem crcVerifyResult : Obligations.CrcVerifyResult := by
  intro s b hb
  rw [exec_crcVerify_of_sumBytes hb]
  constructor
  · intro h
    rw [decide_eq_true h]
    rfl
  · intro h
    rw [decide_eq_false h]
    rfl

/-! ## Linearity (R105) -/

theorem crcByte_xor (c d : BitVec 16) (x y : Byte) :
    crcByte (c ^^^ d) (x ^^^ y) = crcByte c x ^^^ crcByte d y := by
  have entering : (c ^^^ d) ^^^ ((x ^^^ y).setWidth 16 <<< 8) =
      (c ^^^ (x.setWidth 16 <<< 8)) ^^^ (d ^^^ (y.setWidth 16 <<< 8)) := by
    rw [BitVec.setWidth_xor, BitVec.shiftLeft_xor_distrib]
    ac_rfl
  simp only [crcByte, entering, crcShift8_xor]

/-- XOR goes through the bytes one by one, from any two register values. -/
theorem foldl_crcByte_xor (c d : BitVec 16) {a b : List Byte} (h : a.length = b.length) :
    (List.zipWith (· ^^^ ·) a b).foldl crcByte (c ^^^ d) =
      a.foldl crcByte c ^^^ b.foldl crcByte d := by
  induction a generalizing b c d with
  | nil =>
    obtain rfl := List.length_eq_zero_iff.1 h.symm
    rfl
  | cons x a ih =>
    cases b with
    | nil => cases h
    | cons y b =>
      simp only [List.zipWith_cons_cons, List.foldl_cons, crcByte_xor]
      exact ih _ _ (Nat.succ.inj h)

theorem crc16_zipWith_xor {a b : List Byte} (h : a.length = b.length) :
    crc16 (List.zipWith (· ^^^ ·) a b) = crc16 a ^^^ crc16 b := foldl_crcByte_xor 0 0 h

/-- Zeros are their own bytewise XOR, so their checksum is its own XOR with itself. -/
theorem crc16_replicate_zero (n : Nat) : crc16 (List.replicate n 0#8) = 0#16 := by
  have h := crc16_zipWith_xor (a := List.replicate n 0#8) (b := List.replicate n 0#8) rfl
  rwa [List.zipWith_replicate', BitVec.xor_self, BitVec.xor_self] at h

/-- Settles O19. -/
theorem crc16IsLinear : Obligations.Crc16IsLinear :=
  ⟨fun _ _ => crc16_zipWith_xor, crc16_replicate_zero⟩

/-! ## The remainder by the generator (R101) -/

section Remainder

open Polynomial

/-- The generator G(x) of R101. -/
noncomputable def crcGenerator : (ZMod 2)[X] := X ^ 16 + X ^ 12 + X ^ 5 + 1

/-- The polynomial over GF(2) whose x^k coefficient is bit k. -/
noncomputable def bitsPoly {w : Nat} (v : BitVec w) : (ZMod 2)[X] :=
  ∑ k ∈ Finset.range w, if v.getLsbD k then X ^ k else 0

/-- The polynomial M(x) of R101 that a byte sequence reads as, after those of `p`. -/
noncomputable def messagePoly (p : (ZMod 2)[X]) (s : List Byte) : (ZMod 2)[X] :=
  s.foldl (fun p b => p * X ^ 8 + bitsPoly b) p

theorem crcGenerator_monic : crcGenerator.Monic := by
  unfold crcGenerator
  monicity!

theorem degree_crcGenerator : crcGenerator.degree = 16 := by
  unfold crcGenerator
  compute_degree!

theorem coeff_ite_X_pow (b : Bool) (i k : Nat) :
    (if b then X ^ i else 0 : (ZMod 2)[X]).coeff k = if k = i then (if b then 1 else 0) else 0 := by
  cases b <;> simp [coeff_X_pow]

@[simp] theorem coeff_bitsPoly {w : Nat} (v : BitVec w) (k : Nat) :
    (bitsPoly v).coeff k = if v.getLsbD k then 1 else 0 := by
  simp only [bitsPoly, finsetSum_coeff, coeff_ite_X_pow, Finset.sum_ite_eq, Finset.mem_range]
  by_cases hk : k < w
  · simp [hk]
  · simp [hk, BitVec.getLsbD_of_ge v k (Nat.le_of_not_lt hk)]

theorem degree_bitsPoly_lt {w : Nat} (v : BitVec w) : (bitsPoly v).degree < w := by
  refine (degree_lt_iff_coeff_zero _ _).2 fun k hk => ?_
  simp [BitVec.getLsbD_of_ge v k hk]

theorem bitsPoly_zero (w : Nat) : bitsPoly 0#w = 0 := by
  ext k
  simp

/-- XOR of words is the sum over GF(2). -/
theorem bitsPoly_xor {w : Nat} (u v : BitVec w) : bitsPoly (u ^^^ v) = bitsPoly u + bitsPoly v := by
  ext k
  rw [coeff_add, coeff_bitsPoly, coeff_bitsPoly, coeff_bitsPoly, BitVec.getLsbD_xor]
  cases u.getLsbD k <;> cases v.getLsbD k <;> decide

/-- A byte enters the register at x^8 (R100). -/
theorem bitsPoly_setWidth_shiftLeft (b : Byte) :
    bitsPoly (b.setWidth 16 <<< 8) = X ^ 8 * bitsPoly b := by
  ext k
  rw [coeff_X_pow_mul', coeff_bitsPoly, coeff_bitsPoly, BitVec.getLsbD_shiftLeft,
    BitVec.getLsbD_setWidth]
  by_cases hk : k < 16
  · by_cases h8 : 8 ≤ k
    · simp [hk, h8, Nat.not_lt.2 h8, show k - 8 < 16 by omega]
    · simp [h8, Nat.lt_of_not_le h8]
  · simp [hk, BitVec.getLsbD_of_ge b (k - 8) (by omega)]

/-- A left shift multiplies by x and loses the x^16 term. -/
theorem bitsPoly_shiftLeft_one (c : BitVec 16) :
    bitsPoly (c <<< 1) + (if c.getLsbD 15 then X ^ 16 else 0) = X * bitsPoly c := by
  ext k
  rw [coeff_add, coeff_ite_X_pow, coeff_bitsPoly, BitVec.getLsbD_shiftLeft]
  cases k with
  | zero => simp
  | succ k =>
    rw [coeff_X_mul, coeff_bitsPoly]
    rcases Nat.lt_trichotomy k 15 with hk | rfl | hk
    · simp [hk.ne, show k + 1 < 16 by omega]
    · simp
    · simp [hk.ne', BitVec.getLsbD_of_ge c k hk]

/-- 0x1021 is the generator without its x^16 term. -/
theorem bitsPoly_0x1021 : bitsPoly 0x1021#16 = X ^ 12 + X ^ 5 + 1 := by
  calc bitsPoly 0x1021#16 = 1 + X ^ 5 + X ^ 12 := by simp [bitsPoly, Finset.sum_range_succ]
    _ = X ^ 12 + X ^ 5 + 1 := by ring

/-- One shift of R100 multiplies by x, up to the generator. -/
theorem bitsPoly_crcShift (c : BitVec 16) :
    bitsPoly (crcShift c) = X * bitsPoly c + if c.getLsbD 15 then crcGenerator else 0 := by
  rw [← bitsPoly_shiftLeft_one, crcShift]
  split
  · rw [bitsPoly_xor, bitsPoly_0x1021, crcGenerator]
    linear_combination -(CharTwo.two_eq_zero (R := (ZMod 2)[X])) * X ^ 16
  · simp

/-- The class of a polynomial modulo the generator: R101's remainders, as a ring. -/
noncomputable abbrev crcClass : (ZMod 2)[X] →+* AdjoinRoot crcGenerator := AdjoinRoot.mk crcGenerator

theorem crcClass_crcShift (c : BitVec 16) :
    crcClass (bitsPoly (crcShift c)) = crcClass X * crcClass (bitsPoly c) := by
  rw [bitsPoly_crcShift, map_add, map_mul]
  split <;> simp

theorem crcClass_crcShift8 (c : BitVec 16) :
    crcClass (bitsPoly (crcShift8 c)) = crcClass X ^ 8 * crcClass (bitsPoly c) := by
  simp only [crcShift8, crcClass_crcShift]
  ring

/-- A byte appended to the message: the register's class and the message's stay x^16 apart. -/
theorem crcClass_crcByte {p : (ZMod 2)[X]} {c : BitVec 16} (b : Byte)
    (h : crcClass (p * X ^ 16) = crcClass (bitsPoly c)) :
    crcClass ((p * X ^ 8 + bitsPoly b) * X ^ 16) = crcClass (bitsPoly (crcByte c b)) := by
  rw [crcByte, crcClass_crcShift8, bitsPoly_xor, bitsPoly_setWidth_shiftLeft, map_add, ← h]
  simp only [map_add, map_mul, map_pow]
  ring

theorem crcClass_foldl {p : (ZMod 2)[X]} {c : BitVec 16} (s : List Byte)
    (h : crcClass (p * X ^ 16) = crcClass (bitsPoly c)) :
    crcClass (messagePoly p s * X ^ 16) = crcClass (bitsPoly (s.foldl crcByte c)) := by
  induction s generalizing p c with
  | nil => exact h
  | cons b s ih => exact ih (crcClass_crcByte b h)

/-- A word of the class of `p` is the remainder of `p`: it is below the generator's degree. -/
theorem modByMonic_crcGenerator {p : (ZMod 2)[X]} {c : BitVec 16}
    (h : crcClass p = crcClass (bitsPoly c)) : p %ₘ crcGenerator = bitsPoly c := by
  rw [modByMonic_eq_of_dvd_sub crcGenerator_monic (AdjoinRoot.mk_eq_mk.1 h),
    modByMonic_eq_self_iff crcGenerator_monic, degree_crcGenerator]
  exact degree_bitsPoly_lt c

theorem messagePoly_mod_crcGenerator (s : List Byte) :
    (messagePoly 0 s * X ^ 16) %ₘ crcGenerator = bitsPoly (crc16 s) :=
  modByMonic_crcGenerator (crcClass_foldl s (by rw [zero_mul, bitsPoly_zero]))

/-- Settles O20: the remainder, and R101's check value. -/
theorem crc16IsThePolynomialRemainder : Obligations.Crc16IsThePolynomialRemainder :=
  ⟨messagePoly_mod_crcGenerator, by decide +kernel⟩

end Remainder

/-! ## One changed bit (R106) -/

/-- The bit shifted out at the top comes back in at the bottom: the generator's lowest term is 1. -/
theorem getLsbD_zero_crcShift (c : BitVec 16) : (crcShift c).getLsbD 0 = c.getLsbD 15 := by
  unfold crcShift
  split <;> simp_all

/-- So a shift loses nothing. -/
theorem crcShift_injective : Function.Injective crcShift := by
  intro c d h
  have htop : c.getLsbD 15 = d.getLsbD 15 := by
    rw [← getLsbD_zero_crcShift, h, getLsbD_zero_crcShift]
  have hlow : c <<< 1 = d <<< 1 := by
    unfold crcShift at h
    rw [htop] at h
    split at h
    · exact (BitVec.xor_left_inj _).1 h
    · exact h
  refine BitVec.eq_of_getLsbD_eq fun k hk => ?_
  by_cases h15 : k = 15
  · rw [h15, htop]
  · have hk' : (c <<< 1).getLsbD (k + 1) = (d <<< 1).getLsbD (k + 1) := by rw [hlow]
    simpa only [BitVec.getLsbD_shiftLeft, show k + 1 < 16 by omega, Nat.add_sub_cancel,
      show ¬ k + 1 < 1 by omega, decide_true, decide_false, Bool.not_false, Bool.true_and] using hk'

theorem crcShift8_injective : Function.Injective crcShift8 := by
  have h2 := crcShift_injective.comp crcShift_injective
  have h4 := h2.comp h2
  exact h4.comp h4

theorem crcByte_left_injective (b : Byte) : Function.Injective (crcByte · b) :=
  fun _ _ h => (BitVec.xor_left_inj _).1 (crcShift8_injective h)

theorem crcByte_right_injective (c : BitVec 16) : Function.Injective (crcByte c) := by
  intro x y h
  have h' : x.setWidth 16 <<< 8 = y.setWidth 16 <<< 8 :=
    (BitVec.xor_right_inj _).1 (crcShift8_injective h)
  bv_omega

/-- Equal registers after the same bytes were equal before them. -/
theorem foldl_crcByte_injective (s : List Byte) : Function.Injective (s.foldl crcByte) := by
  induction s with
  | nil => exact fun _ _ h => h
  | cons b s ih => exact fun _ _ h => crcByte_left_injective b (ih h)

/-- The checksum sees every change of one byte. -/
theorem crc16_set_ne {s : List Byte} {i : Nat} (hi : i < s.length) {x : Byte} (hx : x ≠ s[i]) :
    crc16 (s.set i x) ≠ crc16 s := by
  intro h
  have hs : s = s.take i ++ s[i] :: s.drop (i + 1) := by simp
  rw [List.set_eq_take_append_cons_drop, if_pos hi] at h
  conv at h => rhs; rw [hs]
  simp only [crc16, List.foldl_append, List.foldl_cons] at h
  exact hx (crcByte_right_injective _ (foldl_crcByte_injective _ h))

/-- A flipped bit changes its byte. -/
theorem flipBit_ne (x : Byte) {k : Nat} (hk : k < 8) : x ^^^ (1#8 <<< k) ≠ x := by
  intro h
  have h' := congrArg (BitVec.getLsbD · k) h
  simp [hk] at h'

/-- The stored checksum does not look at the first 34 bytes. -/
theorem storedSum_set_of_lt {b : List Byte} {i : Nat} (hi : i < 34) (x : Byte) :
    storedSum (b.set i x) = storedSum b := by
  simp [storedSum, List.getD_eq_getElem?_getD, show i ≠ 34 by omega, show i ≠ 35 by omega]

/-- It sees every change of one of the two bytes it stands in. -/
theorem storedSum_set_ne {b : List Byte} {i : Nat} (hb : b.length = 36) (h34 : 34 ≤ i) (h36 : i < 36)
    {x : Byte} (hx : x ≠ b.getD i 0#8) : storedSum (b.set i x) ≠ storedSum b := by
  obtain rfl | rfl : i = 34 ∨ i = 35 := by omega
  · have h (y : Byte) : x ++ y ≠ b.getD 34 0#8 ++ y := mt (BitVec.append_left_inj y).1 hx
    simpa [storedSum, hb] using h (b.getD 35 0#8)
  · have h (y : Byte) : y ++ x ≠ y ++ b.getD 35 0#8 := mt (BitVec.append_right_inj y).1 hx
    simpa [storedSum, hb] using h (b.getD 34 0#8)

/-- Settles O21: a flip in the first 34 bytes changes the recomputed checksum only, one in the last two
the stored one only. -/
theorem everySingleBitFlipIsSeen : Obligations.EverySingleBitFlipIsSeen := by
  intro b i k hb hsum hi hk
  have hflip := flipBit_ne (b.getD i 0#8) hk
  by_cases h34 : i < 34
  · rw [storedSum_set_of_lt h34, ← hsum, List.take_set]
    exact crc16_set_ne (by simp [hb, h34]) (by simpa [hb, hi] using hflip)
  · rw [List.take_set_of_le (by omega), hsum]
    exact (storedSum_set_ne hb (by omega) hi hflip).symm

end Sys2Proof.Machine
end

section
/-! The two alphabets, the 6-bit values of a buffer, and the text that encodes it (R120 to R126). -/

namespace Sys2Proof.Machine

/-! ## The alphabets (R120 to R122) -/

/-- The characters of the values 0..61, the same in both alphabets. -/
theorem toNat_alpha (A : Alphabet) (v : BitVec 6) :
    (v.toNat ≤ 25 → (alpha A v).toNat = 0x41 + v.toNat) ∧
      (26 ≤ v.toNat ∧ v.toNat ≤ 51 → (alpha A v).toNat = 0x61 + (v.toNat - 26)) ∧
      (52 ≤ v.toNat ∧ v.toNat ≤ 61 → (alpha A v).toNat = 0x30 + (v.toNat - 52)) := by
  refine ⟨fun h => ?_, fun h => ?_, fun h => ?_⟩
  · rw [alpha, if_pos (by omega), BitVec.toNat_ofNat]
    omega
  · rw [alpha, if_neg (by omega), if_pos (by omega), BitVec.toNat_ofNat]
    omega
  · rw [alpha, if_neg (by omega), if_neg (by omega), if_pos (by omega), BitVec.toNat_ofNat]
    omega

/-- `alpha` undoes `val` (R122): one case per row of the table. -/
theorem alpha_of_charVal {A : Alphabet} {c : Byte} {v : BitVec 6} (h : charVal A c = some v) :
    alpha A v = c := by
  apply BitVec.eq_of_toNat_eq
  obtain ⟨hu, hl, hd⟩ := toNat_alpha A v
  unfold charVal at h
  split_ifs at h with h1 h2 h3 h4 h5 <;> cases h
  · rw [BitVec.toNat_ofNat] at hu
    omega
  · rw [BitVec.toNat_ofNat] at hl
    omega
  · rw [BitVec.toNat_ofNat] at hd
    omega
  · rw [h4]; rfl
  · rw [h5]; rfl

theorem charVal_eq_some_iff {A : Alphabet} {c : Byte} {v : BitVec 6} :
    charVal A c = some v ↔ alpha A v = c :=
  ⟨alpha_of_charVal, fun h => h ▸ charVal_alpha A v⟩

/-- Settles O22. -/
theorem alphabetTables : Obligations.AlphabetTables :=
  ⟨toNat_alpha, rfl, rfl, rfl, rfl, fun _ _ _ => charVal_eq_some_iff⟩

/-- A text has values exactly when it spells them in the alphabet. -/
theorem charVals_eq_some_iff {A : Alphabet} {t : List Byte} {vs : List (BitVec 6)} :
    charVals A t = some vs ↔ vs.map (alpha A) = t := by
  induction t generalizing vs with
  | nil => rw [charVals_nil, Option.some.injEq, List.map_eq_nil_iff, eq_comm]
  | cons c t ih =>
    rw [charVals_cons_eq_some, List.map_eq_cons_iff]
    simp only [ih, charVal_eq_some_iff]
    constructor
    · rintro ⟨v, ws, hv, hw, rfl⟩
      exact ⟨v, ws, rfl, hv, hw⟩
    · rintro ⟨v, ws, rfl, hv, hw⟩
      exact ⟨v, ws, hv, hw, rfl⟩

/-- `'='` stands in no text over an alphabet. -/
theorem padChar_not_mem_map_alpha (A : Alphabet) (vs : List (BitVec 6)) :
    padChar ∉ vs.map (alpha A) := by
  intro h
  obtain ⟨v, -, hv⟩ := List.mem_map.1 h
  have hn := charVal_padChar A
  rw [← hv, charVal_alpha] at hn
  cases hn

/-! ## The 6-bit values of a buffer (R126) -/

/-- The 6-bit values of the complete groups of three bytes, most significant first (R126). -/
def sextets : List Byte → List (BitVec 6)
  | x :: y :: z :: rest =>
    (x ++ y ++ z).extractLsb' 18 6 :: (x ++ y ++ z).extractLsb' 12 6 ::
      (x ++ y ++ z).extractLsb' 6 6 :: (x ++ y ++ z).extractLsb' 0 6 :: sextets rest
  | _ => []

theorem b64enc_eq_map (A : Alphabet) (b : List Byte) : b64enc A b = (sextets b).map (alpha A) := by
  induction b using sextets.induct with
  | case1 x y z rest ih => simp [b64enc, sextets, ih]
  | case2 b hb =>
    rw [sextets, b64enc, List.map_nil]
    · exact hb
    · exact hb

/-- An encoded text has the values of its buffer. -/
@[simp] theorem charVals_b64enc (A : Alphabet) (b : List Byte) :
    charVals A (b64enc A b) = some (sextets b) :=
  charVals_eq_some_iff.2 (b64enc_eq_map A b).symm

theorem length_sextets {b : List Byte} {n : Nat} (h : b.length = 3 * n) :
    (sextets b).length = 4 * n :=
  (length_charVals (charVals_b64enc .standard b)).trans (length_b64enc .standard n b h)

/-- The 24 bits of group `g` of a buffer, its first byte most significant (R126). -/
def groupAt (b : List Byte) (g : Nat) : BitVec 24 :=
  b.getD (3 * g) 0#8 ++ b.getD (3 * g + 1) 0#8 ++ b.getD (3 * g + 2) 0#8

@[simp] theorem groupAt_succ (x y z : Byte) (rest : List Byte) (g : Nat) :
    groupAt (x :: y :: z :: rest) (g + 1) = groupAt rest g := by
  simp [groupAt, Nat.mul_add]

/-- Group `g` gives the values 4g to 4g + 3. -/
theorem getElem?_sextets {b : List Byte} {g i : Nat} (h : 3 * g + 2 < b.length) (hi : i < 4) :
    (sextets b)[4 * g + i]? = some ((groupAt b g).extractLsb' (18 - 6 * i) 6) := by
  induction b using sextets.induct generalizing g with
  | case1 x y z rest ih =>
    cases g with
    | zero => interval_cases i <;> rfl
    | succ g =>
      have h' : 3 * g + 2 < rest.length := by
        simp only [List.length_cons] at h
        omega
      rw [groupAt_succ, ← ih h', sextets, show 4 * (g + 1) + i = 4 * g + i + 4 by omega]
      rfl
  | case2 b hb =>
    match b, hb, h with
    | x :: y :: z :: rest, hb, _ => exact absurd rfl (hb x y z rest)

/-! ## The encode commands (R126, R134, R135) -/

/-- A B64.ENC command commits the text of BUF and its length. -/
theorem exec_b64Enc {s : State} {b : List Byte} {A : Alphabet} {i : Instr}
    (hi : (i, A) ∈ [(Instr.b64EncStd, Alphabet.standard), (.b64EncUrl, .urlSafe)])
    (hb : s.bufBytes = some b) :
    exec i s = .next (finish (s.stageText (b64enc A b)) false (some A)) := by
  fin_cases hi
  · exact exec_of_input (i := .b64EncStd) nofun hb
  · exact exec_of_input (i := .b64EncUrl) nofun hb

/-- Settles O24. -/
theorem b64EncodeResult : Obligations.B64EncodeResult := by
  intro s b hb
  exact ⟨exec_b64Enc (A := .standard) (by decide) hb, exec_b64Enc (A := .urlSafe) (by decide) hb⟩

/-- Settles O25: by the groups of the buffer, and the rules of the sequence write. -/
theorem encodedTextIsStandardBase64 : Obligations.EncodedTextIsStandardBase64 := by
  refine ⟨fun A b hb => ⟨length_b64enc A 12 b hb, ?_, fun g hg => ?_⟩, fun s t b A i hi hb ht => ?_⟩
  · rw [b64enc_eq_map]
    exact padChar_not_mem_map_alpha A _
  · have char {i : Nat} (hi : i < 4) :
        (b64enc A b)[4 * g + i]? = some (alpha A ((groupAt b g).extractLsb' (18 - 6 * i) 6)) := by
      rw [b64enc_eq_map, List.getElem?_map, getElem?_sextets (by omega) hi]
      rfl
    exact ⟨char (i := 0) (by decide), char (i := 1) (by decide), char (i := 2) (by decide),
      char (i := 3) (by decide)⟩
  · have hlen : (b64enc A b).length = 48 := length_b64enc A 12 b (Memory.length_readBytes hb)
    obtain rfl := Host.Outcome.next.inj ((exec_b64Enc hi hb).symm.trans ht)
    refine ⟨rfl, ?_, fun j hj _ => Memory.read_writeBytes_outside _ _ (.inr ?_)⟩
    · rw [← hlen]
      exact Memory.readBytes_writeBytes_same ..
    · rw [hlen, txtBase]
      omega

end Sys2Proof.Machine
end

section
/-! The bit assembly of a decode (R128 step 4, R129): how many bytes it gives, what it leaves, and that on
whole groups it is the inverse of taking the 6-bit values of a buffer. -/

namespace Sys2Proof.Machine

/-- From `k` leftover bits on, a byte for every eight bits. -/
theorem length_assembleBits (vs : List (BitVec 6)) {acc k : Nat} (hk : k < 8) :
    (assembleBits vs acc k).1.length = (k + 6 * vs.length) / 8 := by
  induction vs generalizing acc k with
  | nil =>
    rw [assembleBits]
    simp only [List.length_nil]
    omega
  | cons v vs ih =>
    rw [assembleBits]
    split_ifs with h
    · simp only [List.length_cons, ih (show k + 6 - 8 < 8 by omega)]
      omega
    · simp only [List.length_cons, ih (show k + 6 < 8 by omega)]
      omega

/-- Settles O26: 6 m bits give 6 m / 8 bytes. -/
theorem decodedLength : Obligations.DecodedLength := by
  intro vs hm
  rw [length_assembleBits vs (by decide : 0 < 8)]
  constructor
  · split_ifs <;> omega
  · omega

/-- Where four or fewer bits are left over, they are the low bits of the last value. -/
theorem assembleBits_concat_leftover (vs : List (BitVec 6)) (v : BitVec 6) {acc k : Nat} (hk : k < 8)
    (h4 : (k + 6 * (vs.length + 1)) % 8 ≤ 4) :
    (assembleBits (vs ++ [v]) acc k).2 = v.toNat % 2 ^ ((k + 6 * (vs.length + 1)) % 8) := by
  induction vs generalizing acc k with
  | nil =>
    simp only [List.length_nil] at h4 ⊢
    have hk2 : 8 ≤ k + 6 := by omega
    rw [List.nil_append, assembleBits, if_pos hk2, show (k + 6 * (0 + 1)) % 8 = k + 6 - 8 by omega]
    exact shiftLeft_or_mod _ _ (by omega)
  | cons w vs ih =>
    rw [List.cons_append, assembleBits]
    simp only [List.length_cons] at h4 ⊢
    split_ifs with h
    · rw [show (k + 6 * (vs.length + 1 + 1)) % 8 = (k + 6 - 8 + 6 * (vs.length + 1)) % 8 by omega]
      exact ih (by omega) (by omega)
    · rw [show (k + 6 * (vs.length + 1 + 1)) % 8 = (k + 6 + 6 * (vs.length + 1)) % 8 by omega]
      exact ih (by omega) (by omega)

/-- Whole groups of four values leave no bits. -/
theorem assembleBits_leftover_of_quads {vs : List (BitVec 6)} (h : vs.length % 4 = 0) :
    (assembleBits vs 0 0).2 = 0 := by
  rcases List.eq_nil_or_concat vs with rfl | ⟨ws, v, rfl⟩
  · rfl
  · rw [List.length_concat] at h
    rw [List.concat_eq_append, assembleBits_concat_leftover ws v (by decide) (by omega),
      show (0 + 6 * (ws.length + 1)) % 8 = 0 by omega, pow_zero, Nat.mod_one]

/-- A window of a window. -/
theorem extractLsb'_extractLsb' {w : Nat} (x : BitVec w) (s : Nat) {i m n : Nat} (h : i + m ≤ n) :
    (x.extractLsb' s n).extractLsb' i m = x.extractLsb' (s + i) m := by
  ext j hj
  simp [show i + j < n by omega, Nat.add_assoc]

/-- A window and the one right below it are one window. -/
theorem toNat_window {w : Nat} (x : BitVec w) (s m : Nat) :
    (x.extractLsb' (s + 6) m).toNat <<< 6 ||| (x.extractLsb' s 6).toNat =
      (x.extractLsb' s (m + 6)).toNat := by
  rw [← BitVec.toNat_append, BitVec.extractLsb'_append_extractLsb'_eq_extractLsb' rfl]

/-- Two or more leftover bits and the next value, all windows of a word: a byte of the word, and the
window below it as leftover bits. -/
theorem assembleBits_window {w : Nat} (x : BitVec w) (s n : Nat) (vs : List (BitVec 6)) :
    assembleBits (x.extractLsb' s 6 :: vs) (x.extractLsb' (s + 6) (n + 2)).toNat (n + 2) =
      (x.extractLsb' (s + n) 8 :: (assembleBits vs (x.extractLsb' s n).toNat n).1,
        (assembleBits vs (x.extractLsb' s n).toNat n).2) := by
  have hbyte : BitVec.ofNat 8 ((x.extractLsb' s (n + 8)).toNat >>> n) = x.extractLsb' (s + n) 8 :=
    extractLsb'_extractLsb' x s (Nat.le_refl _)
  have hleft : (x.extractLsb' s (n + 8)).toNat % 2 ^ n = (x.extractLsb' s n).toNat := by
    rw [BitVec.extractLsb'_toNat, BitVec.extractLsb'_toNat,
      Nat.mod_mod_of_dvd _ (Nat.pow_dvd_pow 2 (by omega))]
  rw [assembleBits, if_pos (by omega)]
  simp only [toNat_window, show n + 2 + 6 - 8 = n by omega, hbyte, hleft]

/-- The four values of 24 bits give back their three bytes (R126, R128). -/
theorem assembleBits_group (x : BitVec 24) (vs : List (BitVec 6)) :
    assembleBits (x.extractLsb' 18 6 :: x.extractLsb' 12 6 :: x.extractLsb' 6 6 ::
        x.extractLsb' 0 6 :: vs) 0 0 =
      (x.extractLsb' 16 8 :: x.extractLsb' 8 8 :: x.extractLsb' 0 8 :: (assembleBits vs 0 0).1,
        (assembleBits vs 0 0).2) := by
  have hfirst (ws : List (BitVec 6)) : assembleBits (x.extractLsb' 18 6 :: ws) 0 0 =
      assembleBits ws (x.extractLsb' 18 6).toNat 6 := by
    simp [assembleBits]
  have hlast : (x.extractLsb' 0 0).toNat = 0 := by simp
  rw [hfirst, assembleBits_window x 12 4, assembleBits_window x 6 2, assembleBits_window x 0 0,
    hlast]

/-! ## Whole groups: the inverse of taking the values (R132) -/

/-- The three bytes of a group stand in it most significant first. -/
theorem extractLsb'_append_three_bytes (x y z : Byte) :
    (x ++ y ++ z).extractLsb' 16 8 = x ∧ (x ++ y ++ z).extractLsb' 8 8 = y ∧
      (x ++ y ++ z).extractLsb' 0 8 = z := by
  refine ⟨?_, ?_, BitVec.extractLsb'_append_eq_right⟩
  · rw [BitVec.extractLsb'_append_eq_of_le (by decide)]
    exact BitVec.extractLsb'_append_eq_left
  · rw [BitVec.extractLsb'_append_eq_of_le (by decide)]
    exact BitVec.extractLsb'_append_eq_right

/-- Every 24 bits are three bytes in a row. -/
theorem append_three_bytes_extractLsb' (x : BitVec 24) :
    x.extractLsb' 16 8 ++ x.extractLsb' 8 8 ++ x.extractLsb' 0 8 = x := by
  rw [BitVec.extractLsb'_append_extractLsb'_eq_extractLsb' (show 16 = 8 + 8 from rfl)]
  exact BitVec.extractLsb'_append_extractLsb'

/-- Every four values are those of 24 bits. -/
theorem exists_group (a b c d : BitVec 6) :
    ∃ x : BitVec 24, a = x.extractLsb' 18 6 ∧ b = x.extractLsb' 12 6 ∧ c = x.extractLsb' 6 6 ∧
      d = x.extractLsb' 0 6 := by
  have drop {w : Nat} (x : BitVec w) (v : BitVec 6) (n : Nat) :
      (x ++ v).extractLsb' (n + 6) 6 = x.extractLsb' n 6 :=
    BitVec.extractLsb'_append_eq_of_le (Nat.le_add_left 6 n)
  refine ⟨a ++ b ++ c ++ d, ?_, ?_, ?_, BitVec.extractLsb'_append_eq_right.symm⟩
  · rw [drop _ _ 12, drop _ _ 6]
    exact BitVec.extractLsb'_append_eq_left.symm
  · rw [drop _ _ 6, drop _ _ 0]
    exact BitVec.extractLsb'_append_eq_right.symm
  · rw [drop _ _ 0]
    exact BitVec.extractLsb'_append_eq_right.symm

/-- Assembling the values of a buffer gives the buffer. -/
theorem assembleBits_sextets {n : Nat} {b : List Byte} (h : b.length = 3 * n) :
    assembleBits (sextets b) 0 0 = (b, 0) := by
  induction n generalizing b with
  | zero =>
    obtain rfl := List.length_eq_zero_iff.1 h
    rfl
  | succ n ih =>
    match b, h with
    | x :: y :: z :: rest, h =>
      obtain ⟨hx, hy, hz⟩ := extractLsb'_append_three_bytes x y z
      rw [sextets, assembleBits_group, hx, hy, hz, ih (Nat.add_right_cancel (m := 3) h)]

/-- Assembling whole groups of values gives a buffer that has them. -/
theorem sextets_assembleBits {n : Nat} {vs : List (BitVec 6)} (h : vs.length = 4 * n) :
    sextets (assembleBits vs 0 0).1 = vs := by
  induction n generalizing vs with
  | zero =>
    obtain rfl := List.length_eq_zero_iff.1 h
    rfl
  | succ n ih =>
    match vs, h with
    | a :: b :: c :: d :: vs, h =>
      obtain ⟨x, rfl, rfl, rfl, rfl⟩ := exists_group a b c d
      rw [assembleBits_group, sextets, append_three_bytes_extractLsb',
        ih (Nat.add_right_cancel (m := 4) h)]

end Sys2Proof.Machine
end

section
/-! Decoding (R127 to R132): the padding policies, what a decode reports, and that it succeeds exactly
on the texts the encoder writes. -/

namespace Sys2Proof.Machine

/-! ## Trailing padding (R127) -/

/-- A text is a body, empty or with a last character other than `'='`, and a run of `'='`. -/
theorem exists_body_padding (t : List Byte) :
    ∃ u p, (∀ c, u.getLast? = some c → c ≠ padChar) ∧ t = u ++ List.replicate p padChar := by
  induction t using List.reverseRecOn with
  | nil => exact ⟨[], 0, nofun, rfl⟩
  | append_singleton t c ih =>
    by_cases hc : c = padChar
    · obtain ⟨u, p, hu, rfl⟩ := ih
      exact ⟨u, p + 1, hu, by rw [hc, List.replicate_succ', List.append_assoc]⟩
    · refine ⟨t ++ [c], 0, fun d hd => ?_, by simp⟩
      obtain rfl : c = d := by simpa using hd
      exact hc

/-- The run `padRun` counts is the whole of that padding. -/
theorem padRun_append_replicate {u : List Byte} (hu : ∀ c, u.getLast? = some c → c ≠ padChar)
    (p : Nat) : padRun (u ++ List.replicate p padChar) = p := by
  have hbody : u.reverse.takeWhile (· == padChar) = [] := by
    rcases List.eq_nil_or_concat u with rfl | ⟨w, c, rfl⟩
    · rfl
    · have hc : c ≠ padChar := hu c (by simp)
      simp [hc]
  rw [padRun, List.reverse_append, List.reverse_replicate,
    List.takeWhile_append_of_pos (by simp), hbody]
  simp

/-- Without padding, only a policy that requires it refuses, and only where it is missing (R127). -/
theorem padRefused_zero_iff {P : PadPolicy} {n : Nat} :
    padRefused P n 0 = true ↔ n % 4 ≠ 0 ∧ P = .requireCanonical := by
  simp [padRefused]

/-- Padding has to fill a group with one or two `'='`, under a policy that takes any (R127). -/
theorem padRefused_pos_iff {P : PadPolicy} {n p : Nat} (hp : 0 < p) :
    padRefused P n p = true ↔ 2 < p ∨ n % 4 ≠ 0 ∨ P = .reject := by
  simp [padRefused, hp, or_assoc]

/-- A decode judges the padding first, and then the body (R128). -/
theorem b64decWith_append_padding (P : PadPolicy) (A : Alphabet) {u : List Byte}
    (hu : ∀ c, u.getLast? = some c → c ≠ padChar) (p : Nat) :
    b64decWith P A (u ++ List.replicate p padChar) =
      if padRefused P (u.length + p) p = true then .error .invalidBase64
      else (charVals A u).elim (.error .invalidBase64) decodeVals := by
  rw [b64decWith, padRun_append_replicate hu, List.length_append, List.length_replicate,
    Nat.add_sub_cancel, List.take_left' rfl]
  cases charVals A u <;> rfl

theorem b64decWith_of_padRefused {P : PadPolicy} (A : Alphabet) {u : List Byte}
    (hu : ∀ c, u.getLast? = some c → c ≠ padChar) {p : Nat}
    (h : padRefused P (u.length + p) p = true) :
    b64decWith P A (u ++ List.replicate p padChar) = .error .invalidBase64 := by
  rw [b64decWith_append_padding P A hu, if_pos h]

/-- The last character of a text over an alphabet is not `'='`. -/
theorem getLast_ne_padChar_of_charVals {A : Alphabet} {u : List Byte} {vs : List (BitVec 6)}
    (h : charVals A u = some vs) (c : Byte) (hc : u.getLast? = some c) : c ≠ padChar := by
  rintro rfl
  exact padChar_not_mem_map_alpha A vs
    (charVals_eq_some_iff.1 h ▸ List.mem_of_getLast? hc)

/-- Where the padding is taken and the body is over the alphabet, its values are decoded. -/
theorem b64decWith_of_padTaken {P : PadPolicy} {A : Alphabet} {u : List Byte}
    {vs : List (BitVec 6)} (hv : charVals A u = some vs) {p : Nat}
    (h : ¬ padRefused P (u.length + p) p = true) :
    b64decWith P A (u ++ List.replicate p padChar) = decodeVals vs := by
  rw [b64decWith_append_padding P A (getLast_ne_padChar_of_charVals hv), if_neg h, hv]
  rfl

/-- The same on a text without padding. -/
theorem b64decWith_of_charVals {P : PadPolicy} {A : Alphabet} {t : List Byte}
    {vs : List (BitVec 6)} (hv : charVals A t = some vs)
    (h : t.length % 4 = 0 ∨ P ≠ .requireCanonical) : b64decWith P A t = decodeVals vs := by
  have htaken : ¬ padRefused P (t.length + 0) 0 = true := by
    rw [padRefused_zero_iff]
    rintro ⟨h4, hP⟩
    exact h.elim h4 (· hP)
  have hdec := b64decWith_of_padTaken hv htaken
  rwa [List.replicate_zero, List.append_nil] at hdec

/-- Settles O30: by what each policy refuses. -/
theorem paddingPolicies : Obligations.PaddingPolicies := by
  intro A u p hu t
  have hlen : t.length = u.length + p := by simp [t]
  have refused {P : PadPolicy} (h : padRefused P t.length p = true) :
      b64decWith P A t = .error .invalidBase64 :=
    b64decWith_of_padRefused A hu (hlen ▸ h)
  have taken {P : PadPolicy} {vs : List (BitVec 6)} (hv : charVals A u = some vs)
      (h : ¬ padRefused P t.length p = true) : b64decWith P A t = decodeVals vs :=
    b64decWith_of_padTaken hv (hlen ▸ h)
  refine ⟨fun hp => ?_, fun P hp h => ?_, fun h0 h4 => ?_, fun h2 h4 vs hv => ?_, fun h0 vs hv => ?_⟩
  · exact refused ((padRefused_pos_iff hp).2 (.inr (.inr rfl)))
  · exact refused ((padRefused_pos_iff hp).2 (h.imp_right .inl))
  · subst h0
    exact refused (padRefused_zero_iff.2 ⟨h4, rfl⟩)
  · have canonical {P : PadPolicy} (hP : P ≠ .reject) : ¬ padRefused P t.length p = true := by
      rcases Nat.eq_zero_or_pos p with rfl | hp
      · exact fun h => (padRefused_zero_iff.1 h).1 h4
      · rw [padRefused_pos_iff hp]
        rintro (h | h | h)
        · omega
        · exact h h4
        · exact hP h
    exact ⟨taken hv (canonical nofun), taken hv (canonical nofun)⟩
  · subst h0
    have unpadded {P : PadPolicy} (hP : P ≠ .requireCanonical) : ¬ padRefused P t.length 0 = true :=
      fun h => hP (padRefused_zero_iff.1 h).2
    exact ⟨taken hv (unpadded nofun), taken hv (unpadded nofun)⟩

/-! ## What a failing decode reports (R128, R130) -/

theorem decodeVals_of_length_mod_one {vs : List (BitVec 6)} (h : vs.length % 4 = 1) :
    decodeVals vs = .error .invalidBase64 := if_pos h

theorem decodeVals_of_leftover {vs : List (BitVec 6)} (h : (assembleBits vs 0 0).2 ≠ 0) :
    decodeVals vs = .error .invalidBase64 := by
  rw [decodeVals, if_pos h, ite_self]

/-- The length is looked at last. -/
theorem decodeVals_of_length {vs : List (BitVec 6)} (h1 : vs.length % 4 ≠ 1)
    (h0 : (assembleBits vs 0 0).2 = 0) (hl : vs.length ≠ 48) :
    decodeVals vs = .error .invalidLength := by
  rw [decodeVals, if_neg h1, if_neg (not_not.2 h0), if_pos (mt (decodedLength vs h1).2.1 hl)]

/-- Where four or fewer bits are left over, they are the low bits of the last value. -/
theorem assembleBits_leftover_of_getLast {vs : List (BitVec 6)} {v : BitVec 6} {r : Nat}
    (hv : vs.getLast? = some v) (hr : 6 * vs.length % 8 = r) (h4 : r ≤ 4) :
    (assembleBits vs 0 0).2 = (v.extractLsb' 0 r).toNat := by
  obtain ⟨ws, rfl⟩ := List.getLast?_eq_some_iff.1 hv
  rw [List.length_append, List.length_singleton, ← Nat.zero_add (6 * _)] at hr
  subst hr
  rw [assembleBits_concat_leftover ws v (by decide) h4, BitVec.extractLsb'_toNat, Nat.shiftRight_zero]

/-- The last value is that of the last character. -/
theorem getLast_of_charVals {A : Alphabet} {u : List Byte} {vs : List (BitVec 6)} {c : Byte}
    {v : BitVec 6} (hvs : charVals A u = some vs) (hc : u.getLast? = some c)
    (hv : charVal A c = some v) : vs.getLast? = some v := by
  rw [← charVals_eq_some_iff.1 hvs, List.getLast?_map] at hc
  obtain ⟨w, hw, rfl⟩ := Option.map_eq_some_iff.1 hc
  rw [charVal_alpha] at hv
  rwa [← hv]

/-- A byte outside the alphabet that is no trailing `'='` stands in the body. -/
theorem mem_body_of_append_cons {u v w : List Byte} {c : Byte} {p : Nat}
    (h : u ++ c :: v = w ++ List.replicate p padChar) (hc : c ≠ padChar ∨ ∃ d ∈ v, d ≠ padChar) :
    c ∈ w := by
  have not_padding {x : List Byte} : x ++ c :: v ≠ List.replicate p padChar := by
    intro hx
    have all : ∀ d ∈ x ++ c :: v, d = padChar := fun d hd => List.eq_of_mem_replicate (hx ▸ hd)
    rcases hc with hc | ⟨d, hd, hne⟩
    · exact hc (all c (by simp))
    · exact hne (all d (by simp [hd]))
  rcases List.append_eq_append_iff.1 h with ⟨x, rfl, hx⟩ | ⟨x, -, hx⟩
  · cases x with
    | nil => exact absurd hx (not_padding (x := []))
    | cons d x =>
      obtain ⟨rfl, -⟩ := List.cons.inj hx
      simp
  · exact absurd hx.symm not_padding

/-- Such a byte is InvalidBase64 under every policy. -/
theorem b64decWith_of_foreign_byte (P : PadPolicy) {A : Alphabet} {u v : List Byte} {c : Byte}
    (hn : charVal A c = none) (hc : c ≠ padChar ∨ ∃ d ∈ v, d ≠ padChar) :
    b64decWith P A (u ++ c :: v) = .error .invalidBase64 := by
  obtain ⟨w, p, hw, ht⟩ := exists_body_padding (u ++ c :: v)
  have hnone : charVals A w = none := by
    rw [← Option.not_isSome_iff_eq_none, charVals_isSome_iff]
    intro hall
    have hsome := hall c (mem_body_of_append_cons ht hc)
    rw [hn] at hsome
    cases hsome
  rw [ht, b64decWith_append_padding P A hw, hnone]
  exact ite_self _

/-- InvalidBase64 from the values of the body: the policy and the padding make no difference. -/
theorem b64decWith_of_decodeVals_invalidBase64 (P : PadPolicy) {A : Alphabet} {u : List Byte}
    {vs : List (BitVec 6)} (hv : charVals A u = some vs) (hd : decodeVals vs = .error .invalidBase64)
    (p : Nat) : b64decWith P A (u ++ List.replicate p padChar) = .error .invalidBase64 := by
  by_cases h : padRefused P (u.length + p) p = true
  · exact b64decWith_of_padRefused A (getLast_ne_padChar_of_charVals hv) h
  · rw [b64decWith_of_padTaken hv h, hd]

/-- A body that fills no group: which padding each policy takes after it. -/
theorem padRefused_of_incomplete_iff {P : PadPolicy} {n p : Nat} (hn : n % 4 ≠ 0) :
    padRefused P (n + p) p = true ↔
      ¬ (p = 0 ∧ P ≠ .requireCanonical ∨ 0 < p ∧ p ≤ 2 ∧ (n + p) % 4 = 0 ∧ P ≠ .reject) := by
  rcases Nat.eq_zero_or_pos p with rfl | hp
  · rw [padRefused_zero_iff]
    simp [hn]
  · rw [padRefused_pos_iff hp]
    simp only [hp, Nat.ne_of_gt hp, false_and, false_or, true_and, not_and_or, not_le, not_not]

/-- Settles O29: each clause by the step of the decode that raises. -/
theorem decodeErrorsInOrder : Obligations.DecodeErrorsInOrder := by
  intro P A t
  refine ⟨?_, fun ht h1 => ?_, fun ht h4 h48 => ?_, ?_⟩
  · rintro ⟨u, c, v, rfl, hn, hc⟩
    exact b64decWith_of_foreign_byte P hn hc
  · obtain ⟨vs, hv⟩ := Option.isSome_iff_exists.1 (charVals_isSome_iff.2 ht)
    rw [← length_charVals hv] at h1
    have herr := b64decWith_of_decodeVals_invalidBase64 P hv (decodeVals_of_length_mod_one h1) 0
    rwa [List.replicate_zero, List.append_nil] at herr
  · obtain ⟨vs, hv⟩ := Option.isSome_iff_exists.1 (charVals_isSome_iff.2 ht)
    rw [b64decWith_of_charVals hv (.inl h4)]
    rw [← length_charVals hv] at h4 h48
    exact decodeVals_of_length (by omega) (assembleBits_leftover_of_quads h4) h48
  · rintro u p c v rfl hu hlast hc
    obtain ⟨vs, hv⟩ := Option.isSome_iff_exists.1 (charVals_isSome_iff.2 hu)
    have hlen := length_charVals hv
    have leftover {r : Nat} (hr : 6 * u.length % 8 = r) (h4 : r ≤ 4) :
        (assembleBits vs 0 0).2 = 0 ↔ v.extractLsb' 0 r = 0#r := by
      rw [assembleBits_leftover_of_getLast (getLast_of_charVals hv hlast hc) (hlen ▸ hr) h4]
      exact BitVec.toNat_inj (y := 0#r)
    constructor
    · intro h
      have hne : (assembleBits vs 0 0).2 ≠ 0 := by
        rcases h with ⟨h, hne⟩ | ⟨h, hne⟩
        · exact mt (leftover (by omega) (by decide)).1 hne
        · exact mt (leftover (by omega) (by decide)).1 hne
      exact b64decWith_of_decodeVals_invalidBase64 P hv (decodeVals_of_leftover hne) p
    · intro h
      have h0 : (assembleBits vs 0 0).2 = 0 := by
        rcases h with ⟨h, h0⟩ | ⟨h, h0⟩
        · exact (leftover (by omega) (by decide)).2 h0
        · exact (leftover (by omega) (by decide)).2 h0
      have hd : decodeVals vs = .error .invalidLength := decodeVals_of_length (by omega) h0 (by omega)
      have hrefused := padRefused_of_incomplete_iff (P := P) (n := u.length) (p := p) (by omega)
      rw [List.length_append, List.length_replicate]
      split_ifs with htaken
      · exact (b64decWith_of_padTaken hv (mt hrefused.1 (not_not.2 htaken))).trans hd
      · exact b64decWith_of_padRefused A (getLast_ne_padChar_of_charVals hv) (hrefused.2 htaken)

/-! ## When a decode succeeds (R131, R132) -/

/-- A decode succeeds exactly on the encoding of 36 bytes, with these bytes: the values of its body are
48, which leaves no room for padding, and they are the values of the bytes. -/
theorem b64decWith_ok_iff_b64enc {P : PadPolicy} {A : Alphabet} {t b : List Byte} :
    b64decWith P A t = .ok b ↔ b.length = 36 ∧ b64enc A b = t := by
  constructor
  · intro h
    obtain ⟨u, p, hu, rfl⟩ := exists_body_padding t
    rw [b64decWith_append_padding P A hu] at h
    split_ifs at h with hpad
    cases hv : charVals A u with
    | none =>
      rw [hv] at h
      cases h
    | some vs =>
      rw [hv] at h
      obtain ⟨h1, hasm, hb⟩ := decodeVals_ok_iff.1 h
      have h48 : vs.length = 48 := (decodedLength vs h1).2.1 (by rw [hasm, hb])
      have hu48 : u.length = 48 := (length_charVals hv).symm.trans h48
      obtain rfl : p = 0 := by
        by_contra hp
        refine hpad ((padRefused_pos_iff (by omega)).2 ?_)
        omega
      refine ⟨hb, ?_⟩
      have hs := sextets_assembleBits (n := 12) h48
      rw [hasm] at hs
      rw [b64enc_eq_map, hs, charVals_eq_some_iff.1 hv, List.replicate_zero, List.append_nil]
  · rintro ⟨hb, rfl⟩
    have hasm := assembleBits_sextets (n := 12) hb
    have hlen := length_b64enc A 12 b hb
    rw [b64decWith_of_charVals (charVals_b64enc A b) (.inl (by omega)), decodeVals_ok_iff]
    exact ⟨by rw [length_sextets (n := 12) hb]; decide, hasm, hb⟩

/-- Every text of 48 characters of the alphabet is the encoding of 36 bytes. -/
theorem exists_b64enc {A : Alphabet} {t : List Byte} (ht : t.length = 48)
    (hA : ∀ c ∈ t, (charVal A c).isSome = true) : ∃ b : List Byte, b.length = 36 ∧ b64enc A b = t := by
  obtain ⟨vs, hv⟩ := Option.isSome_iff_exists.1 (charVals_isSome_iff.2 hA)
  have hl : vs.length = 4 * 12 := (length_charVals hv).trans ht
  refine ⟨(assembleBits vs 0 0).1, ?_, ?_⟩
  · exact (decodedLength vs (by omega)).2.2 hl
  · rw [b64enc_eq_map, sextets_assembleBits hl, charVals_eq_some_iff.1 hv]

/-- Settles O28. -/
theorem base64RoundTrip : Obligations.Base64RoundTrip := by
  refine fun P A => ⟨fun b hb => b64decWith_ok_iff_b64enc.2 ⟨hb, rfl⟩,
    fun t b h => (b64decWith_ok_iff_b64enc.1 h).2, fun t ht hA => ?_⟩
  have hvals : ∀ c ∈ t, (charVal A c).isSome = true := by
    intro c hc
    obtain ⟨v, rfl⟩ := hA c hc
    simp
  obtain ⟨b, hb, rfl⟩ := exists_b64enc ht hvals
  refine ⟨b, ⟨hb, rfl⟩, fun b' ⟨hb', h'⟩ => ?_⟩
  have hdec : b64decWith P A (b64enc A b) = .ok b := b64decWith_ok_iff_b64enc.2 ⟨hb, rfl⟩
  rw [b64decWith_ok_iff_b64enc.2 ⟨hb', h'⟩] at hdec
  exact Except.ok.inj hdec

/-- Bit `j` of a buffer stands in its group at the same place from the most significant end. -/
theorem getMsbD_groupAt (b : List Byte) (j : Nat) :
    (groupAt b (j / 24)).getMsbD (j % 24) = (b.getD (j / 8) 0#8).getMsbD (j % 8) := by
  rw [groupAt, BitVec.getMsbD_append, BitVec.getMsbD_append]
  split_ifs with h2 h1
  · rw [show j / 8 = 3 * (j / 24) + 2 by omega, show j % 8 = j % 24 - (8 + 8) by omega]
  · rw [show j / 8 = 3 * (j / 24) + 1 by omega, show j % 8 = j % 24 - 8 by omega]
  · rw [show j / 8 = 3 * (j / 24) by omega, show j % 8 = j % 24 by omega]

/-- Bit `j` of a buffer is bit `j` of the values of its text, both from the most significant end. -/
theorem getMsbD_charVal_b64enc (A : Alphabet) {b : List Byte} (hb : b.length = 36) {j : Nat}
    (hj : j < 288) :
    ((charVal A ((b64enc A b).getD (j / 6) 0#8)).getD 0#6).getMsbD (j % 6) =
      (b.getD (j / 8) 0#8).getMsbD (j % 8) := by
  have hchar := getElem?_sextets (b := b) (g := j / 24) (i := j / 6 % 4) (by omega) (by omega)
  rw [show 4 * (j / 24) + j / 6 % 4 = j / 6 by omega] at hchar
  rw [List.getD_eq_getElem?_getD, b64enc_eq_map, List.getElem?_map, hchar, Option.map_some,
    Option.getD_some, charVal_alpha, Option.getD_some, BitVec.getMsbD_extractLsb', ← getMsbD_groupAt,
    show 24 - (18 - 6 * (j / 6 % 4) + 6 - j % 6) = j % 24 by omega]
  simp only [show j % 6 < 6 by omega, show 18 - 6 * (j / 6 % 4) + 6 - j % 6 ≤ 24 by omega,
    decide_true, Bool.true_and]

/-- Settles O27: a decode succeeds exactly on encodings, so the policy makes no difference. -/
theorem decodeSucceedsExactly : Obligations.DecodeSucceedsExactly := by
  refine fun P A t => ⟨⟨?_, ?_⟩, fun b h => ?_⟩
  · rintro ⟨b, h⟩
    obtain ⟨hb, rfl⟩ := b64decWith_ok_iff_b64enc.1 h
    refine ⟨length_b64enc A 12 b hb, ?_, charVals_isSome_iff.1 (by simp)⟩
    rw [b64enc_eq_map]
    exact padChar_not_mem_map_alpha A _
  · rintro ⟨ht, -, hA⟩
    obtain ⟨b, hb⟩ := exists_b64enc ht hA
    exact ⟨b, b64decWith_ok_iff_b64enc.2 hb⟩
  · obtain ⟨hb, rfl⟩ := b64decWith_ok_iff_b64enc.1 h
    exact ⟨fun Q => b64decWith_ok_iff_b64enc.2 ⟨hb, rfl⟩, hb,
      fun j hj => (getMsbD_charVal_b64enc A hb hj).symm⟩

end Sys2Proof.Machine
end

section
/-! Alphabet selection and the B64.DEC commands (R125, R133, R136 to R138). -/

namespace Sys2Proof.Machine

/-- Settles O23. -/
theorem alphabetSelection : Obligations.AlphabetSelection :=
  fun _ => ⟨rfl, rfl, fun ⟨hu, hs⟩ => selectAlphabet_guess_both hu hs,
    fun ⟨hu, hs⟩ => selectAlphabet_guess_urlSafe hu hs, selectAlphabet_guess_standard⟩

/-! ## The four exclusive characters (R123, R133) -/

/-- A text over Standard has no character exclusive to UrlSafe. -/
theorem no_urlSafe_exclusive {t : List Byte} (h : ∀ c ∈ t, (charVal .standard c).isSome = true) :
    ¬ (0x2D#8 ∈ t ∨ 0x5F#8 ∈ t) := by
  rintro (hc | hc)
  · exact absurd (h _ hc) (by decide)
  · exact absurd (h _ hc) (by decide)

/-- A text over UrlSafe has none exclusive to Standard. -/
theorem no_standard_exclusive {t : List Byte} (h : ∀ c ∈ t, (charVal .urlSafe c).isSome = true) :
    ¬ (0x2B#8 ∈ t ∨ 0x2F#8 ∈ t) := by
  rintro (hc | hc)
  · exact absurd (h _ hc) (by decide)
  · exact absurd (h _ hc) (by decide)

/-- The alphabets agree on every byte that is none of the four (R121). -/
theorem charVal_urlSafe_eq_standard {c : Byte} (hu : c ≠ 0x2D#8 ∧ c ≠ 0x5F#8)
    (hs : c ≠ 0x2B#8 ∧ c ≠ 0x2F#8) : charVal .urlSafe c = charVal .standard c := by
  simp [charVal, char62, char63, hu, hs]

/-- So they give a text without the four the same values. -/
theorem charVals_urlSafe_eq_standard {t : List Byte} (hu : ¬ (0x2D#8 ∈ t ∨ 0x5F#8 ∈ t))
    (hs : ¬ (0x2B#8 ∈ t ∨ 0x2F#8 ∈ t)) : charVals .urlSafe t = charVals .standard t := by
  induction t with
  | nil => rfl
  | cons c t ih =>
    simp only [List.mem_cons, not_or] at hu hs ih
    obtain ⟨⟨hu1, hut1⟩, hu2, hut2⟩ := hu
    obtain ⟨⟨hs1, hst1⟩, hs2, hst2⟩ := hs
    rw [charVals, charVals, ih ⟨hut1, hut2⟩ ⟨hst1, hst2⟩,
      charVal_urlSafe_eq_standard ⟨Ne.symm hu1, Ne.symm hu2⟩ ⟨Ne.symm hs1, Ne.symm hs2⟩]

/-- And decode it alike under the same policy. -/
theorem b64decWith_urlSafe_eq_standard (P : PadPolicy) {t : List Byte}
    (hu : ¬ (0x2D#8 ∈ t ∨ 0x5F#8 ∈ t)) (hs : ¬ (0x2B#8 ∈ t ∨ 0x2F#8 ∈ t)) :
    b64decWith P .urlSafe t = b64decWith P .standard t := by
  have sub {c : Byte} (h : c ∈ t.take (t.length - padRun t)) : c ∈ t := List.mem_of_mem_take h
  rw [b64decWith, b64decWith,
    charVals_urlSafe_eq_standard (mt (Or.imp sub sub) hu) (mt (Or.imp sub sub) hs)]

/-- Which bytes a text decodes to depends on no policy. -/
theorem b64dec_ok_iff_b64enc {A : Alphabet} {t b : List Byte} :
    b64dec A t = .ok b ↔ b.length = 36 ∧ b64enc A b = t := b64decWith_ok_iff_b64enc

/-- Both alphabets give a text without the four the same bytes, whatever their policies. -/
theorem b64dec_urlSafe_ok_iff_standard {t b : List Byte} (hu : ¬ (0x2D#8 ∈ t ∨ 0x5F#8 ∈ t))
    (hs : ¬ (0x2B#8 ∈ t ∨ 0x2F#8 ∈ t)) : b64dec .urlSafe t = .ok b ↔ b64dec .standard t = .ok b := by
  rw [b64dec_ok_iff_b64enc, b64dec_ok_iff_b64enc, ← b64decWith_ok_iff_b64enc (P := .reject),
    ← b64decWith_ok_iff_b64enc (P := .reject), b64decWith_urlSafe_eq_standard _ hu hs]

/-! ## The decode commands (R136 to R138) -/

/-- B64.DEC on a text that decodes: the bytes go to BUF, STATUS reports the alphabet selected. -/
theorem b64DecCommand_of_ok {mode : AlphMode} {s : State} {t b : List Byte} {A : Alphabet}
    (hl : s.txtLen.toNat ≤ 256) (ht : s.textBytes = some t) (hs : selectAlphabet mode t = .ok A)
    (hb : b64dec A t = .ok b) :
    b64DecCommand mode s = .next (finish (s.stageBuf b) false (some A)) := by
  have hd : decodeText mode t = .ok (A, b) := decodeText_ok_iff.2 ⟨hs, hb⟩
  have hend : decEnding s mode t = .done (s.stageBuf b) false (some A) := by simp [decEnding, hd]
  rw [b64DecCommand_eq, withText_of_text hl ht, hend, commit_done]

/-- Settles O31: the text is the encoding of one buffer, and guess mode selects an alphabet it is the
encoding in. -/
theorem b64DecodeResult : Obligations.B64DecodeResult := by
  intro s t A hlen ht hA
  have hl : s.txtLen.toNat ≤ 256 := by rw [hlen]; decide
  have ht' : s.textBytes = some t := by
    rw [State.textBytes, hlen]
    exact ht
  obtain ⟨b, hb, henc⟩ := exists_b64enc (Memory.length_readBytes ht) hA
  have hdec : b64dec A t = .ok b := b64dec_ok_iff_b64enc.2 ⟨hb, henc⟩
  refine ⟨b, hb, henc, ?_, ?_⟩
  · rintro rfl
    exact ⟨b64DecCommand_of_ok (mode := .standard) hl ht' rfl hdec,
      b64DecCommand_of_ok hl ht' (selectAlphabet_guess_standard (no_urlSafe_exclusive hA)) hdec⟩
  · rintro rfl
    refine ⟨b64DecCommand_of_ok (mode := .urlSafe) hl ht' rfl hdec, ?_⟩
    have hs := no_standard_exclusive hA
    split_ifs with hu
    · exact b64DecCommand_of_ok hl ht' (selectAlphabet_guess_urlSafe hu hs) hdec
    · exact b64DecCommand_of_ok hl ht' (selectAlphabet_guess_standard hu)
        ((b64dec_urlSafe_ok_iff_standard hu hs).1 hdec)

/-- Two modes that select the same alphabet for the text are the same command, also where TXT_LEN is
refused. -/
theorem b64DecCommand_congr {m m' : AlphMode} {s : State} {t : List Byte} (ht : s.textBytes = some t)
    (h : selectAlphabet m t = selectAlphabet m' t) : b64DecCommand m s = b64DecCommand m' s := by
  have hend : decEnding s m t = decEnding s m' t := by
    rw [decEnding, decEnding, decodeText, decodeText, h]
  rw [b64DecCommand_eq, b64DecCommand_eq, withText, withText, ht, withBytes_some, withBytes_some, hend]

/-- Settles O33: by the alphabet guess mode selects. -/
theorem guessLaw : Obligations.GuessLaw := by
  intro s t ht
  have std (hu : ¬ (0x2D#8 ∈ t ∨ 0x5F#8 ∈ t)) : exec .b64DecGuess s = exec .b64DecStd s :=
    b64DecCommand_congr (m := .guess) (m' := .standard) ht (selectAlphabet_guess_standard hu)
  refine ⟨fun _ hu => std hu, fun hu hs => ?_, fun hu hs => ⟨std hu, fun b => ?_, fun hP => ?_,
    fun u hl h => ?_⟩⟩
  · exact b64DecCommand_congr (m := .guess) (m' := .urlSafe) ht (selectAlphabet_guess_urlSafe hu hs)
  · exact (b64dec_urlSafe_ok_iff_standard hu hs).symm
  · rw [b64dec, b64dec, padPolicy, padPolicy, hP, b64decWith_urlSafe_eq_standard _ hu hs]
  · rw [std hu] at h
    exact statusAu_of_alphabetOf h (fun _ => hl) (au := some .standard) fun _ _ => rfl

end Sys2Proof.Machine
end

section
/-! The Address Buffer Builder (R160 to R170): the flag byte, the layout of a built buffer, BUF.BUILD and
BUF.PARSE, and what a parse makes of a flipped bit. -/

namespace Sys2Proof.Machine

/-! ## The flag byte (R161, R162) -/

/-- The bit form of R161: BNC clears bit 6, TST sets bit 7. -/
theorem flagByte_eq_or (bnc tst : Bool) :
    flagByte bnc tst =
      0x11#8 ||| ((if bnc then 0#8 else 1#8) <<< 6) ||| ((if tst then 1#8 else 0#8) <<< 7) := by
  cases bnc <;> cases tst <;> rfl

/-- The whole list of flag bytes. -/
theorem flagByte_mem (bnc tst : Bool) : flagByte bnc tst ∈ [0x11#8, 0x51#8, 0x91#8, 0xD1#8] := by
  cases bnc <;> cases tst <;> decide

/-- A byte of no flag pair is InvalidFlag (R162). -/
theorem flagDecode_of_ne_flagByte {f : Byte} (h : ∀ bnc tst, f ≠ flagByte bnc tst) :
    flagDecode f = .error .invalidFlag := by
  have h11 : f ≠ 0x11#8 := h true false
  have h51 : f ≠ 0x51#8 := h false false
  have h91 : f ≠ 0x91#8 := h true true
  have hD1 : f ≠ 0xD1#8 := h false true
  rw [flagDecode, if_neg h11, if_neg h51, if_neg h91, if_neg hD1]

theorem ne_flagByte_of_not_mem {f : Byte} (h : f ∉ [0x11#8, 0x51#8, 0x91#8, 0xD1#8])
    (bnc tst : Bool) : f ≠ flagByte bnc tst :=
  fun hf => h (hf ▸ flagByte_mem bnc tst)

/-- Settles O34. -/
theorem flagByteTable : Obligations.FlagByteTable :=
  ⟨rfl, rfl, rfl, rfl, flagByte_eq_or, fun _ _ => flagDecode_ok_iff.2 rfl,
    fun _ hf => flagDecode_of_ne_flagByte (ne_flagByte_of_not_mem hf)⟩

/-! ## The layout of a built buffer (R165) -/

/-- The checksummed bytes of a built buffer. -/
theorem take_build36 (bnc tst : Bool) (wc : Byte) {acct : List Byte} (h : acct.length = 32) :
    (build36 bnc tst wc acct).take 34 = flagByte bnc tst :: wc :: acct := by
  rw [build36_eq, List.take_left' (by simp [h])]

/-- After them stands their checksum. -/
theorem getElem?_build36_sum (bnc tst : Bool) (wc : Byte) {acct : List Byte} (h : acct.length = 32)
    (k : Nat) : (build36 bnc tst wc acct)[34 + k]? =
      (sumToBytes (crc16 ((build36 bnc tst wc acct).take 34)))[k]? := by
  rw [take_build36 bnc tst wc h, build36_eq, List.getElem?_append_right (by simp [h])]
  simp [h]

/-- Settles O35: the checksummed bytes one by one, then their checksum. -/
theorem builtBufferLayout : Obligations.BuiltBufferLayout := by
  intro bnc tst wc acct h
  refine ⟨by rw [length_build36, h], rfl, rfl, fun i hi => ?_,
    getElem?_build36_sum bnc tst wc h 0, getElem?_build36_sum bnc tst wc h 1⟩
  calc (build36 bnc tst wc acct)[2 + i]?
      = ((build36 bnc tst wc acct).take 34)[2 + i]? :=
        (List.getElem?_take_of_lt (by omega)).symm
    _ = acct[i]? := by rw [take_build36 bnc tst wc h, Nat.add_comm]; rfl

/-- The two checksum bytes put together again are the checksum (R164). -/
theorem append_sum_bytes (c : BitVec 16) : c.extractLsb' 8 8 ++ c.extractLsb' 0 8 = c :=
  (BitVec.extractLsb'_append_extractLsb'_eq_extractLsb' rfl).trans BitVec.extractLsb'_eq_self

/-- A built buffer stores its own checksum. -/
theorem storedSum_build36 (bnc tst : Bool) (wc : Byte) {acct : List Byte} (h : acct.length = 32) :
    crc16 ((build36 bnc tst wc acct).take 34) = storedSum (build36 bnc tst wc acct) := by
  rw [storedSum, List.getD_eq_getElem?_getD, List.getD_eq_getElem?_getD,
    getElem?_build36_sum bnc tst wc h 0, getElem?_build36_sum bnc tst wc h 1]
  exact (append_sum_bytes _).symm

/-! ## What parse36 answers (R166) -/

/-- The flag is looked at first. -/
theorem parse36_of_ne_flagByte {b : List Byte} (h : ∀ bnc tst, b.getD 0 0#8 ≠ flagByte bnc tst) :
    parse36 b = .error .invalidFlag := by
  rw [parse36, flagDecode_of_ne_flagByte h]

/-- With a valid flag byte, the checksum decides. -/
theorem parse36_of_mismatch {b : List Byte} {bnc tst : Bool} (hf : b.getD 0 0#8 = flagByte bnc tst)
    (hc : crc16 (b.take 34) ≠ storedSum b) : parse36 b = .error .checksumMismatch := by
  rw [parse36, flagDecode_ok_iff.2 hf]
  exact if_pos hc

theorem parse36_of_agreement {b : List Byte} {bnc tst : Bool} (hf : b.getD 0 0#8 = flagByte bnc tst)
    (hc : crc16 (b.take 34) = storedSum b) :
    parse36 b =
      .ok { wc := b.getD 1 0#8, acct := (b.drop 2).take 32, bnc := bnc, tst := tst } :=
  parse36_ok_iff.2 ⟨flagDecode_ok_iff.2 hf, hc, rfl, rfl⟩

/-- Parsing undoes building (R169). -/
theorem parse36_build36 (bnc tst : Bool) (wc : Byte) {acct : List Byte} (h : acct.length = 32) :
    parse36 (build36 bnc tst wc acct) = .ok { wc := wc, acct := acct, bnc := bnc, tst := tst } := by
  have hacct : ((build36 bnc tst wc acct).drop 2).take 32 = acct := by
    rw [List.take_drop, take_build36 bnc tst wc h]
    rfl
  rw [parse36_of_agreement rfl (storedSum_build36 bnc tst wc h), hacct]
  rfl

/-! ## The commands (R167, R168) -/

/-- BUF.BUILD commits the built buffer. -/
theorem exec_bufBuild_of_acctBytes {s : State} {a : List Byte} (ha : s.acctBytes = some a) :
    exec .bufBuild s = .next (finish (s.stageBuf (build36 s.bnc s.tst s.wc a)) false none) :=
  exec_of_input (i := .bufBuild) nofun ha

/-- Settles O36. -/
theorem bufBuildResult : Obligations.BufBuildResult :=
  fun _ _ ha => exec_bufBuild_of_acctBytes ha

/-- BUF.PARSE commits what the parse returned. -/
theorem exec_bufParse_of_ok {s : State} {b : List Byte} {p : Parsed} (hb : s.bufBytes = some b)
    (hp : parse36 b = .ok p) : exec .bufParse s = .next (finish (s.stageParsed p) false none) := by
  have hend : endingOf .bufParse s b = .done (s.stageParsed p) false none := by
    simp [endingOf, parseEnding, hp]
  rw [exec_of_input (i := .bufParse) nofun hb, hend, commit_done]

/-- Or it reports the error and changes STATUS only (R206). -/
theorem exec_bufParse_of_error {s : State} {b : List Byte} {e : Err} (hb : s.bufBytes = some b)
    (hp : parse36 b = .error e) :
    exec .bufParse s = .next { s with status := statusValue (errCode e) false none } := by
  have hend : endingOf .bufParse s b = .raised e none := by
    simp [endingOf, parseEnding, hp]
  rw [exec_of_input (i := .bufParse) nofun hb, hend, commit_raised,
    raiseError_of_ne_contract (endingOf_raised_ne_contract hend)]

/-- Settles O37: by the three answers of parse36. -/
theorem bufParseResult : Obligations.BufParseResult := by
  intro s b hb
  refine ⟨fun bnc tst hf => ⟨fun hc => ?_, fun hc => ?_⟩, fun hf => ?_⟩
  · exact exec_bufParse_of_ok hb (parse36_of_agreement hf hc)
  · exact exec_bufParse_of_error hb (parse36_of_mismatch hf hc)
  · exact exec_bufParse_of_error hb (parse36_of_ne_flagByte (ne_flagByte_of_not_mem hf))

/-- FLAGS is its two flags (R25). -/
theorem flagsOf_bnc_tst (s : State) : flagsOf s.bnc s.tst = s.flags := by
  have h (f : BitVec 2) : flagsOf (f.getLsbD 0) (f.getLsbD 1) = f := by
    revert f
    decide
  exact h s.flags

/-- Settles O38: BUF.PARSE finds in BUF what BUF.BUILD wrote, and parses it back. -/
theorem buildThenParse : Obligations.BuildThenParse := by
  refine ⟨fun bnc tst wc acct => parse36_build36 bnc tst wc, fun s a ha => ?_⟩
  have hlen : a.length = 32 := Memory.length_readBytes ha
  have hbuf : (finish (s.stageBuf (build36 s.bnc s.tst s.wc a)) false none).bufBytes =
      some (build36 s.bnc s.tst s.wc a) := by
    have hsame := Memory.readBytes_writeBytes_same s.mem bufBase (build36 s.bnc s.tst s.wc a)
    rwa [length_build36, hlen] at hsame
  refine ⟨_, _, exec_bufBuild_of_acctBytes ha,
    exec_bufParse_of_ok hbuf (parse36_build36 s.bnc s.tst s.wc hlen), flagsOf_bnc_tst s, rfl, ?_, ?_⟩
  · have hsame := Memory.readBytes_writeBytes_same
      (s.mem.writeBytes bufBase (build36 s.bnc s.tst s.wc a)) acctBase a
    rwa [hlen] at hsame
  · exact statusErr_statusValue errOk false none

/-! ## A flipped bit (R170) -/

/-- All flag bytes have the same low six bits. -/
theorem getLsbD_flagByte_low (bnc tst : Bool) {k : Nat} (hk : k < 6) :
    (flagByte bnc tst).getLsbD k = (0x11#8).getLsbD k := by
  revert hk k
  cases bnc <;> cases tst <;> decide

/-- So one of them flipped gives no flag byte. -/
theorem flagByte_flip_low_ne (bnc tst : Bool) {k : Nat} (hk : k < 6) (bnc' tst' : Bool) :
    flagByte bnc tst ^^^ (1#8 <<< k) ≠ flagByte bnc' tst' := by
  intro h
  have hlow := getLsbD_flagByte_low bnc' tst' hk
  rw [← h, BitVec.getLsbD_xor, getLsbD_flagByte_low bnc tst hk] at hlow
  simp [show k < 8 by omega] at hlow

/-- Bits 6 and 7 are the flags themselves: one of them flipped gives another flag byte. -/
theorem exists_flagByte_flip_high (bnc tst : Bool) {k : Nat} (h6 : 6 ≤ k) (h8 : k < 8) :
    ∃ bnc' tst', flagByte bnc tst ^^^ (1#8 <<< k) = flagByte bnc' tst' := by
  obtain rfl | rfl : k = 6 ∨ k = 7 := by omega
  · exact ⟨!bnc, tst, by cases bnc <;> cases tst <;> rfl⟩
  · exact ⟨bnc, !tst, by cases bnc <;> cases tst <;> rfl⟩

/-- Settles O39: the checksum sees every flip (R106), so the parse turns on the flag byte it leaves. -/
theorem parseOutcomeOfABitFlip : Obligations.ParseOutcomeOfABitFlip := by
  intro bnc tst wc acct i k h hi hk
  dsimp only
  have hseen := everySingleBitFlipIsSeen (build36 bnc tst wc acct) i k (by rw [length_build36, h])
    (storedSum_build36 bnc tst wc h) hi hk
  refine ⟨?_, ?_, fun hpos => ?_⟩
  · rintro ⟨rfl, h6⟩
    exact parse36_of_ne_flagByte (flagByte_flip_low_ne bnc tst h6)
  · rintro ⟨rfl, h6⟩
    obtain ⟨bnc', tst', hf⟩ := exists_flagByte_flip_high bnc tst h6 hk
    exact parse36_of_mismatch hf hseen
  · have hf (x : Byte) : ((build36 bnc tst wc acct).set i x).getD 0 0#8 = flagByte bnc tst := by
      rw [List.getD_eq_getElem?_getD, List.getElem?_set_ne (Nat.ne_of_gt hpos)]
      rfl
    exact parse36_of_mismatch (hf _) hseen

end Sys2Proof.Machine
end

section
/-! The address pipelines (R180 to R188, R204): ADDR.ENC, ADDR.DEC and the error it reports, and the
round trip. -/

namespace Sys2Proof.Machine

/-! ## ADDR.ENC (R180 to R182) -/

/-- An ADDR.ENC command commits the built buffer, its text and the text's length. -/
theorem exec_addrEnc {s : State} {a : List Byte} {A : Alphabet} {i : Instr}
    (hi : (i, A) ∈ [(Instr.addrEncStd, Alphabet.standard), (.addrEncUrl, .urlSafe)])
    (ha : s.acctBytes = some a) :
    exec i s = .next (finish ((s.stageBuf (build36 s.bnc s.tst s.wc a)).stageText
      (b64enc A (build36 s.bnc s.tst s.wc a))) false (some A)) := by
  fin_cases hi
  · exact exec_of_input (i := .addrEncStd) nofun ha
  · exact exec_of_input (i := .addrEncUrl) nofun ha

/-- Settles O40. -/
theorem addrEncodeResult : Obligations.AddrEncodeResult :=
  fun _ _ ha => ⟨exec_addrEnc (A := .standard) (by decide) ha,
    exec_addrEnc (A := .urlSafe) (by decide) ha⟩

/-! ## ADDR.DEC (R183 to R186) -/

/-- The ADDR.DEC commands with the alphabet mode each names. -/
def addrDecModes : List (Instr × AlphMode) :=
  [(.addrDecStd, .standard), (.addrDecUrl, .urlSafe), (.addrDecGuess, .guess)]

theorem exec_addrDec {i : Instr} {mode : AlphMode} (hi : (i, mode) ∈ addrDecModes) (s : State) :
    exec i s = withText s (addrEnding s mode) := by
  unfold addrDecModes at hi
  fin_cases hi <;> rfl

/-- A stage that raises ends the command: STATUS alone changes (R206). -/
theorem exec_addrDec_of_raised {i : Instr} {mode : AlphMode} (hi : (i, mode) ∈ addrDecModes)
    {s : State} {t : List Byte} {e : Err} {au : Option Alphabet} (hl : s.txtLen.toNat ≤ 256)
    (ht : s.textBytes = some t) (hend : addrEnding s mode t = .raised e au) :
    exec i s = .next { s with status := statusValue (errCode e) false au } := by
  have he : e ≠ .contractViolation := by
    rcases addrEnding_raised hend with hd | ⟨_, _, _, hp, _⟩
    · rcases decodeText_error hd with rfl | rfl <;> decide
    · rcases parse36_error hp with rfl | rfl <;> decide
  rw [exec_addrDec hi, withText_of_text hl ht, hend, commit_raised, raiseError_of_ne_contract he]

/-- Selection raises with no alphabet. -/
theorem addrEnding_of_select_error {s : State} {mode : AlphMode} {t : List Byte} {e : Err}
    (h : selectAlphabet mode t = .error e) : addrEnding s mode t = .raised .invalidBase64 none := by
  have hd : decodeText mode t = .error (.invalidBase64, none) :=
    decodeText_error_iff.2 (.inl ⟨selectAlphabet_error h ▸ h, rfl⟩)
  simp [addrEnding, hd]

/-- The decode raises with the alphabet selected. -/
theorem addrEnding_of_b64dec_error {s : State} {mode : AlphMode} {t : List Byte} {A : Alphabet}
    {e : Err} (hs : selectAlphabet mode t = .ok A) (h : b64dec A t = .error e) :
    addrEnding s mode t = .raised e (some A) := by
  have hd : decodeText mode t = .error (e, some A) :=
    decodeText_error_iff.2 (.inr ⟨A, hs, h, rfl⟩)
  simp [addrEnding, hd]

/-- So does the parse. -/
theorem addrEnding_of_parse36_error {s : State} {mode : AlphMode} {t b : List Byte} {A : Alphabet}
    {e : Err} (hs : selectAlphabet mode t = .ok A) (hb : b64dec A t = .ok b)
    (h : parse36 b = .error e) : addrEnding s mode t = .raised e (some A) := by
  have hd : decodeText mode t = .ok (A, b) := decodeText_ok_iff.2 ⟨hs, hb⟩
  simp [addrEnding, hd, h]

/-- Where no stage raises, the buffer and its fields are committed. -/
theorem exec_addrDec_of_ok {i : Instr} {mode : AlphMode} (hi : (i, mode) ∈ addrDecModes)
    {s : State} {t b : List Byte} {A : Alphabet} {p : Parsed} (hl : s.txtLen.toNat ≤ 256)
    (ht : s.textBytes = some t) (hs : selectAlphabet mode t = .ok A) (hb : b64dec A t = .ok b)
    (hp : parse36 b = .ok p) :
    exec i s = .next (finish ((s.stageBuf b).stageParsed p) false (some A)) := by
  have hd : decodeText mode t = .ok (A, b) := decodeText_ok_iff.2 ⟨hs, hb⟩
  have hend : addrEnding s mode t = .done ((s.stageBuf b).stageParsed p) false (some A) := by
    simp [addrEnding, hd, hp]
  rw [exec_addrDec hi, withText_of_text hl ht, hend, commit_done]

/-- A text of 48 characters is what TXT holds under TXT_LEN = 48. -/
theorem textBytes_of_txtLen {s : State} {t : List Byte} (hlen : s.txtLen = 48#9)
    (ht : s.mem.readBytes 0x100 48 = some t) : s.txtLen.toNat ≤ 256 ∧ s.textBytes = some t := by
  refine ⟨by rw [hlen]; decide, ?_⟩
  rw [State.textBytes, hlen]
  exact ht

/-- An encoded text is over its alphabet. -/
theorem isSome_charVal_of_mem_b64enc {A : Alphabet} {b : List Byte} {c : Byte}
    (h : c ∈ b64enc A b) : (charVal A c).isSome = true :=
  charVals_isSome_iff.1 (by simp) c h

/-- Guess mode decodes every encoded text, taking Standard unless a character shows UrlSafe (R125). -/
theorem guess_of_b64enc (A : Alphabet) {b : List Byte} (hb : b.length = 36) :
    ∃ B, selectAlphabet .guess (b64enc A b) = .ok B ∧ b64dec B (b64enc A b) = .ok b ∧
      B = if 0x2D#8 ∈ b64enc A b ∨ 0x5F#8 ∈ b64enc A b then .urlSafe else .standard := by
  have hdec : b64dec A (b64enc A b) = .ok b := b64dec_ok_iff_b64enc.2 ⟨hb, rfl⟩
  have hA : ∀ c ∈ b64enc A b, (charVal A c).isSome = true :=
    fun _ => isSome_charVal_of_mem_b64enc
  split_ifs with hu
  · cases A with
    | standard => exact absurd hu (no_urlSafe_exclusive hA)
    | urlSafe => exact ⟨_, selectAlphabet_guess_urlSafe hu (no_standard_exclusive hA), hdec, rfl⟩
  · refine ⟨_, selectAlphabet_guess_standard hu, ?_, rfl⟩
    cases A with
    | standard => exact hdec
    | urlSafe => exact (b64dec_urlSafe_ok_iff_standard hu (no_standard_exclusive hA)).1 hdec

/-- Settles O41: the text decodes to the built buffer in the alphabet its command selects. -/
theorem addrDecodeResult : Obligations.AddrDecodeResult := by
  intro s bnc tst wc acct A hacct b t after hlen ht
  obtain ⟨hl, ht'⟩ := textBytes_of_txtLen hlen ht
  have hb : b.length = 36 := by rw [length_build36, hacct]
  have hdec : b64dec A t = .ok b := b64dec_ok_iff_b64enc.2 ⟨hb, rfl⟩
  have ends {i : Instr} {mode : AlphMode} {B : Alphabet} (hi : (i, mode) ∈ addrDecModes)
      (hs : selectAlphabet mode t = .ok B) (hB : b64dec B t = .ok b) :
      exec i s = .next (after (statusValue errOk false (some B))) :=
    exec_addrDec_of_ok hi hl ht' hs hB (parse36_build36 bnc tst wc hacct)
  obtain ⟨B, hs, hB, hguess⟩ := guess_of_b64enc A hb
  have hends := ends (i := .addrDecGuess) (by decide) hs hB
  refine ⟨?_, ?_⟩
  · rintro rfl
    have hu : ¬ (0x2D#8 ∈ t ∨ 0x5F#8 ∈ t) :=
      no_urlSafe_exclusive fun _ => isSome_charVal_of_mem_b64enc
    rw [hguess, if_neg hu] at hends
    exact ⟨ends (mode := .standard) (by decide) rfl hdec, hends⟩
  · rintro rfl
    refine ⟨ends (mode := .urlSafe) (by decide) rfl hdec, hends.trans ?_⟩
    rw [hguess]
    split_ifs <;> rfl

/-! ## The first error is the one reported (R204) -/

/-- STATUS of an error as a number, whichever alphabet was selected (R24, R205). -/
theorem statusValue_some (e : BitVec 4) (A : Alphabet) :
    statusValue e false (some A) =
      (if A = .standard then 0xA0#8 else 0xC0#8) ||| e.setWidth 8 := by
  cases A
  · exact statusValue_standard e
  · exact statusValue_urlSafe e

/-- The list of flag bytes holds no others. -/
theorem exists_flagByte_of_mem {f : Byte} (h : f ∈ [0x11#8, 0x51#8, 0x91#8, 0xD1#8]) :
    ∃ bnc tst, f = flagByte bnc tst := by
  fin_cases h
  · exact ⟨true, false, rfl⟩
  · exact ⟨false, false, rfl⟩
  · exact ⟨true, true, rfl⟩
  · exact ⟨false, true, rfl⟩

/-- Settles O42: one clause per stage of the pipeline, in its order. -/
theorem addrDecodeErrorPriority : Obligations.AddrDecodeErrorPriority := by
  intro s i mode hi
  refine ⟨fun hl => ?_, fun hl ht => ?_, fun t hl ht => ⟨fun e he => ?_, fun A hs => ?_⟩⟩
  · rw [exec_addrDec hi, withText_of_long hl, raiseError_eq, decide_eq_true rfl, Bool.or_true]
    rfl
  · rw [exec_addrDec hi, withText_fault_iff]
    exact ⟨hl, ht, rfl⟩
  · exact exec_addrDec_of_raised hi hl ht (addrEnding_of_select_error he)
  · have raised {e : Err} (hend : addrEnding s mode t = .raised e (some A)) :
        exec i s = .next { s with
          status := (if A = .standard then 0xA0#8 else 0xC0#8) ||| (errCode e).setWidth 8 } := by
      rw [exec_addrDec_of_raised hi hl ht hend, statusValue_some]
    refine ⟨fun e he => raised (addrEnding_of_b64dec_error hs he), fun b hb => ⟨fun hf => ?_,
      fun hf hc => ?_⟩⟩
    · exact raised (addrEnding_of_parse36_error hs hb
        (parse36_of_ne_flagByte (ne_flagByte_of_not_mem hf)))
    · obtain ⟨bnc, tst, hf⟩ := exists_flagByte_of_mem hf
      exact raised (addrEnding_of_parse36_error hs hb (parse36_of_mismatch hf hc))

/-! ## The round trip (R188) -/

/-- The text ADDR.ENC or B64.ENC wrote is what a text command then finds in TXT (R126). -/
theorem textBytes_stageText (s : State) {b : List Byte} (A : Alphabet) (hb : b.length = 36) :
    (s.stageText (b64enc A b)).textBytes = some (b64enc A b) := by
  have hsame := Memory.readBytes_writeBytes_same s.mem txtBase (b64enc A b)
  rwa [length_b64enc A 12 b hb] at hsame

/-- The mode of the second command selects an alphabet in which the first one's text decodes. -/
theorem exists_select_of_roundTrip {enc dec : Instr} {b : List Byte} (hb : b.length = 36)
    (h : (enc, dec) ∈ [(Instr.addrEncStd, Instr.addrDecStd), (.addrEncStd, .addrDecGuess),
      (.addrEncUrl, .addrDecUrl), (.addrEncUrl, .addrDecGuess)]) :
    ∃ A mode B, (enc, A) ∈ [(Instr.addrEncStd, Alphabet.standard), (.addrEncUrl, .urlSafe)] ∧
      (dec, mode) ∈ addrDecModes ∧ selectAlphabet mode (b64enc A b) = .ok B ∧
      b64dec B (b64enc A b) = .ok b := by
  have same (A : Alphabet) : b64dec A (b64enc A b) = .ok b := b64dec_ok_iff_b64enc.2 ⟨hb, rfl⟩
  have guessed (A : Alphabet) :
      ∃ B, selectAlphabet .guess (b64enc A b) = .ok B ∧ b64dec B (b64enc A b) = .ok b := by
    obtain ⟨B, hs, hB, -⟩ := guess_of_b64enc A hb
    exact ⟨B, hs, hB⟩
  fin_cases h
  · exact ⟨.standard, .standard, .standard, by decide, by decide, rfl, same _⟩
  · exact ⟨.standard, .guess, (guessed _).imp fun _ h => ⟨by decide, by decide, h⟩⟩
  · exact ⟨.urlSafe, .urlSafe, .urlSafe, by decide, by decide, rfl, same _⟩
  · exact ⟨.urlSafe, .guess, (guessed _).imp fun _ h => ⟨by decide, by decide, h⟩⟩

/-- Settles O43: ADDR.DEC finds in TXT the text ADDR.ENC wrote there, and parses its buffer back. -/
theorem addressRoundTrip : Obligations.AddressRoundTrip := by
  intro s a enc dec ha hi
  have hlen : a.length = 32 := Memory.length_readBytes ha
  have hb : (build36 s.bnc s.tst s.wc a).length = 36 := by rw [length_build36, hlen]
  obtain ⟨A, mode, B, henc, hdec, hs, hB⟩ := exists_select_of_roundTrip hb hi
  have htext := textBytes_stageText (s.stageBuf (build36 s.bnc s.tst s.wc a)) A hb
  have hacct (m : Memory) : (m.writeBytes acctBase a).readBytes acctBase 32 = some a := by
    rw [← hlen]
    exact Memory.readBytes_writeBytes_same ..
  exact ⟨_, _, exec_addrEnc henc ha,
    exec_addrDec_of_ok hdec (show (48#9).toNat ≤ 256 by decide) htext hs hB
      (parse36_build36 s.bnc s.tst s.wc hlen),
    statusErr_statusValue errOk false (some B), rfl, flagsOf_bnc_tst s, hacct _⟩

end Sys2Proof.Machine
end

section
/-! A changed character of an encoded text (R106, R189): the checksum of a buffer with its stored
checksum sees every change within two adjacent bytes, and so within the six bits of one character. -/

namespace Sys2Proof.Machine

/-! ## The checksum over two adjacent bytes (R100, R106) -/

/-- Eight bits at the bottom reach the top before any of them is shifted out. -/
theorem crcShift8_setWidth (y : Byte) : crcShift8 (y.setWidth 16) = y.setWidth 16 <<< 8 := by
  simp [crcShift8, crcShift, ← BitVec.shiftLeft_add]

/-- Two bytes enter the register as the sixteen bits they are. -/
theorem crcByte_crcByte (c : BitVec 16) (x y : Byte) :
    crcByte (crcByte c x) y = crcShift8 (crcShift8 (c ^^^ (x ++ y))) := by
  have happ : x ++ y = x.setWidth 16 <<< 8 ^^^ y.setWidth 16 := by
    refine BitVec.eq_of_getLsbD_eq fun k hk => ?_
    simp only [BitVec.getLsbD_append, BitVec.getLsbD_xor, BitVec.getLsbD_shiftLeft,
      BitVec.getLsbD_setWidth]
    by_cases h8 : k < 8
    · simp [h8, hk]
    · simp [h8, hk, show k - 8 < 16 by omega, BitVec.getLsbD_of_ge y k (by omega)]
  rw [crcByte, crcByte, happ, ← BitVec.xor_assoc, crcShift8_xor (c ^^^ _), crcShift8_setWidth]

/-- The checksum sees every change of two adjacent bytes. -/
theorem crc16_two_bytes_injective {u w : List Byte} {x y x' y' : Byte}
    (h : crc16 (u ++ x :: y :: w) = crc16 (u ++ x' :: y' :: w)) : x = x' ∧ y = y' := by
  simp only [crc16, List.foldl_append, List.foldl_cons, crcByte_crcByte] at h
  have hxy := (BitVec.xor_right_inj _).1
    (crcShift8_injective (crcShift8_injective (foldl_crcByte_injective w h)))
  have hx := congrArg (BitVec.extractLsb' 8 8) hxy
  have hy := congrArg (BitVec.extractLsb' 0 8) hxy
  rw [BitVec.extractLsb'_append_eq_left, BitVec.extractLsb'_append_eq_left] at hx
  rw [BitVec.extractLsb'_append_eq_right, BitVec.extractLsb'_append_eq_right] at hy
  exact ⟨hx, hy⟩

/-- A list around two adjacent places. -/
theorem eq_take_append_two_drop {b : List Byte} {k : Nat} (hk : k + 1 < b.length) :
    b = b.take k ++ b[k] :: b[k + 1] :: b.drop (k + 2) := by
  simp

/-- A buffer stores its own checksum exactly when the checksum over all of it is 0 (R101, R164). -/
theorem crc16_eq_zero_iff {b : List Byte} (hb : b.length = 36) :
    crc16 b = 0#16 ↔ crc16 (b.take 34) = storedSum b := by
  have hsplit : b = b.take 34 ++ [b.getD 34 0#8, b.getD 35 0#8] := by
    have h := eq_take_append_two_drop (b := b) (k := 34) (by omega)
    rwa [List.drop_eq_nil_of_le (by omega), ← List.getD_eq_getElem b 0#8,
      ← List.getD_eq_getElem b 0#8] at h
  have hall : crc16 b = crcShift8 (crcShift8 (crc16 (b.take 34) ^^^ storedSum b)) := by
    conv_lhs => rw [hsplit]
    rw [crc16, List.foldl_append, List.foldl_cons, List.foldl_cons, List.foldl_nil, crcByte_crcByte]
    rfl
  have hzero : crcShift8 0#16 = 0#16 := by decide
  rw [hall, crcShift8_injective.eq_iff' hzero, crcShift8_injective.eq_iff' hzero]
  exact BitVec.xor_eq_zero_iff

/-- Two buffers of the same checksum that agree outside two adjacent bytes are equal. -/
theorem eq_of_crc16_of_agree_outside {b b' : List Byte} {k : Nat} (hlen : b'.length = b.length)
    (hk : k + 1 < b.length) (hout : ∀ m, m ≠ k → m ≠ k + 1 → b'[m]? = b[m]?)
    (h : crc16 b' = crc16 b) : b' = b := by
  have htake : b'.take k = b.take k := by
    refine List.ext_getElem? fun m => ?_
    rw [List.getElem?_take, List.getElem?_take]
    split_ifs with hm
    · exact hout m (by omega) (by omega)
    · rfl
  have hdrop : b'.drop (k + 2) = b.drop (k + 2) := by
    refine List.ext_getElem? fun m => ?_
    rw [List.getElem?_drop, List.getElem?_drop, hout _ (by omega) (by omega)]
  have hb := eq_take_append_two_drop hk
  have hb' := eq_take_append_two_drop (b := b') (k := k) (by omega)
  rw [htake, hdrop] at hb'
  rw [hb, hb'] at h
  obtain ⟨hx, hy⟩ := crc16_two_bytes_injective h
  rw [hb', hx, hy, ← hb]

/-! ## The six bits of one character (R126, R189) -/

/-- The two buffers differ, if at all, in the six bits of character `i` of their texts. -/
def agreeOutsideChar (i : Nat) (b b' : List Byte) : Prop :=
  ∀ j, j < 288 → j / 6 ≠ i →
    (b'.getD (j / 8) 0#8).getMsbD (j % 8) = (b.getD (j / 8) 0#8).getMsbD (j % 8)

/-- Six bits in a row stand in two adjacent bytes. -/
theorem agreeOutsideChar.getElem?_eq {i : Nat} {b b' : List Byte} (h : agreeOutsideChar i b b')
    (hb : b.length = 36) (hb' : b'.length = 36) {m : Nat} (h0 : m ≠ min (6 * i / 8) 34)
    (h1 : m ≠ min (6 * i / 8) 34 + 1) : b'[m]? = b[m]? := by
  by_cases hm : m < 36
  · rw [List.getElem?_eq_getElem (hb' ▸ hm), List.getElem?_eq_getElem (hb ▸ hm),
      ← List.getD_eq_getElem b' 0#8, ← List.getD_eq_getElem b 0#8]
    refine congrArg some (BitVec.eq_of_getMsbD_eq fun r hr => ?_)
    have hbit := h (8 * m + r) (by omega) (by omega)
    rwa [show (8 * m + r) / 8 = m by omega, show (8 * m + r) % 8 = r by omega] at hbit
  · rw [List.getElem?_eq_none (by omega), List.getElem?_eq_none (by omega)]

/-- A buffer that differs from a valid one in the bits of one character is not parsed. -/
theorem agreeOutsideChar.parse36_error {i : Nat} {b b' : List Byte} (h : agreeOutsideChar i b b')
    (hb : b.length = 36) (hb' : b'.length = 36) (hsum : crc16 (b.take 34) = storedSum b)
    (hne : b' ≠ b) : ∃ e, parse36 b' = .error e := by
  cases hp : parse36 b' with
  | error e => exact ⟨e, rfl⟩
  | ok p =>
    obtain ⟨-, hsum', -, -⟩ := parse36_ok_iff.1 hp
    have hcrc : crc16 b' = crc16 b := by
      rw [(crc16_eq_zero_iff hb').2 hsum', (crc16_eq_zero_iff hb).2 hsum]
    exact absurd (eq_of_crc16_of_agree_outside (hb'.trans hb.symm) (by omega)
      (fun m => h.getElem?_eq hb hb') hcrc) hne

/-- A character of both alphabets has the same value in them (R121). -/
theorem charVal_congr {A B : Alphabet} {c : Byte} (hA : (charVal A c).isSome = true)
    (hB : (charVal B c).isSome = true) : charVal A c = charVal B c := by
  have agree (hs : (charVal .standard c).isSome = true) (hu : (charVal .urlSafe c).isSome = true) :
      charVal .urlSafe c = charVal .standard c := by
    refine charVal_urlSafe_eq_standard ⟨?_, ?_⟩ ⟨?_, ?_⟩ <;> rintro rfl
    · exact absurd hs (by decide)
    · exact absurd hs (by decide)
    · exact absurd hu (by decide)
    · exact absurd hu (by decide)
  cases A <;> cases B
  · rfl
  · exact (agree hA hB).symm
  · exact agree hB hA
  · rfl

/-- Where the text of a buffer with one character replaced is the text of another, in whichever
alphabet, the two buffers differ in that character's six bits only. -/
theorem agreeOutsideChar_of_b64enc_eq_set {A B : Alphabet} {b b' : List Byte} {i : Nat} {c : Byte}
    (hb : b.length = 36) (hb' : b'.length = 36) (h : b64enc B b' = (b64enc A b).set i c) :
    agreeOutsideChar i b b' := by
  intro j hj hne
  have valued (A : Alphabet) {b : List Byte} (hb : b.length = 36) :
      (charVal A ((b64enc A b).getD (j / 6) 0#8)).isSome = true := by
    have hlt : j / 6 < (b64enc A b).length := by
      rw [length_b64enc A 12 b hb]
      omega
    rw [List.getD_eq_getElem _ _ hlt]
    exact isSome_charVal_of_mem_b64enc (List.getElem_mem hlt)
  have hchar : (b64enc B b').getD (j / 6) 0#8 = (b64enc A b).getD (j / 6) 0#8 := by
    rw [h, List.getD_eq_getElem?_getD, List.getElem?_set_ne (Ne.symm hne),
      ← List.getD_eq_getElem?_getD]
  have hB := valued B hb'
  rw [hchar] at hB
  rw [← getMsbD_charVal_b64enc B hb' hj, ← getMsbD_charVal_b64enc A hb hj, hchar,
    charVal_congr hB (valued A hb)]

/-! ## A byte outside the alphabet (R128) -/

/-- Where nothing but `'='` follows a byte `'='`, it is the last one that was put there. -/
theorem eq_last_of_set_eq_padding {A : Alphabet} {b u v : List Byte} {i : Nat} {c : Byte}
    (hb : b.length = 36) (hi : i < 48) (h : (b64enc A b).set i c = u ++ padChar :: v)
    (hv : ∀ d ∈ v, d = padChar) : i = 47 ∧ c = padChar := by
  have hlen : (b64enc A b).length = 48 := length_b64enc A 12 b hb
  have hlast : ((b64enc A b).set i c)[47]? = some padChar := by
    have hpad : padChar :: v = List.replicate (v.length + 1) padChar :=
      List.eq_replicate_iff.2 ⟨rfl, by simpa using hv⟩
    have hget : ((b64enc A b).set i c).getLast? = some padChar := by
      rw [h, hpad, List.replicate_succ', ← List.append_assoc, List.getLast?_concat]
    rwa [List.getLast?_eq_getElem?, List.length_set, hlen] at hget
  obtain rfl : i = 47 := by
    by_contra hne
    rw [List.getElem?_set_ne hne] at hlast
    exact absurd (isSome_charVal_of_mem_b64enc (List.mem_of_getElem? hlast))
      (by simp [charVal_padChar])
  rw [List.getElem?_set_self (by omega)] at hlast
  exact ⟨rfl, Option.some.inj hlast⟩

/-- An encoded text with a byte outside the alphabet put into it is InvalidBase64, but for `'='` in the
last place, which a padding policy may take: then InvalidLength can come. -/
theorem b64dec_of_foreign_set {A B : Alphabet} {b : List Byte} {i : Nat} {c d : Byte}
    (hb : b.length = 36) (hi : i < 48) (hd : d ∈ (b64enc A b).set i c) (hn : charVal B d = none) :
    ∃ e, b64dec B ((b64enc A b).set i c) = .error e ∧
      (e = .invalidBase64 ∨ e = .invalidLength ∧ i = 47 ∧ c = padChar) := by
  obtain ⟨u, v, ht⟩ := List.append_of_mem hd
  by_cases hbody : d ≠ padChar ∨ ∃ x ∈ v, x ≠ padChar
  · refine ⟨.invalidBase64, ?_, .inl rfl⟩
    rw [ht]
    exact b64decWith_of_foreign_byte _ hn hbody
  · simp only [not_or, not_not, not_exists, not_and] at hbody
    obtain ⟨rfl, hv⟩ := hbody
    have hplace := eq_last_of_set_eq_padding hb hi ht hv
    cases hdec : b64dec B ((b64enc A b).set i c) with
    | error e => exact ⟨e, rfl, (b64dec_error hdec).imp_right fun he => ⟨he, hplace⟩⟩
    | ok b' =>
      obtain ⟨-, henc⟩ := b64dec_ok_iff_b64enc.1 hdec
      exact absurd (isSome_charVal_of_mem_b64enc (henc ▸ hd)) (by simp [hn])

/-! ## Substitutions (R189) -/

/-- The account id whose mainnet address has one character of value 62 and none of value 63: 31 bytes
0x00, then 0xF8 (log entry 18). -/
def acctOfOneExclusiveChar : List Byte := List.replicate 31 0x00#8 ++ [0xF8#8]

/-- `'-'` for the one `'+'` of its Standard text gives its UrlSafe text. -/
theorem set_b64enc_standard_eq_urlSafe :
    (b64enc .standard (build36 true false 0x00#8 acctOfOneExclusiveChar)).set 44 0x2D#8 =
      b64enc .urlSafe (build36 true false 0x00#8 acctOfOneExclusiveChar) := by
  decide +kernel

/-- Refutes O44: replacing the one `'+'` by `'-'` turns the Standard text of an address into its
UrlSafe text, which ADDR.DEC.URL takes (R188). -/
theorem not_anySubstitutionIsRejected : ¬ Obligations.AnySubstitutionIsRejected := by
  intro h
  have hlen : acctOfOneExclusiveChar.length = 32 := rfl
  have hne : 0x2D#8 ≠
      (b64enc .standard (build36 true false 0x00#8 acctOfOneExclusiveChar)).getD 44 0#8 := by
    decide +kernel
  refine h true false 0x00#8 acctOfOneExclusiveChar .standard 44 0x2D#8 .urlSafe hlen (by decide) hne
    .urlSafe (build36 true false 0x00#8 acctOfOneExclusiveChar) _ ?_
    (parse36_build36 true false 0x00#8 hlen)
  rw [set_b64enc_standard_eq_urlSafe]
  exact decodeText_ok_iff.2 ⟨rfl, b64dec_ok_iff_b64enc.2 ⟨by rw [length_build36, hlen], rfl⟩⟩

/-- Settles O45: by the stage that raises; where the text decodes, the checksum sees the change. -/
theorem valueChangingSubstitutionIsRejected : Obligations.ValueChangingSubstitutionIsRejected := by
  intro s bnc tst wc acct A i c dec mode hacct hi b t hne hlen ht hdec
  obtain ⟨hl, ht'⟩ := textBytes_of_txtLen hlen ht
  have hb : b.length = 36 := by rw [length_build36, hacct]
  have ends {e : Err} {au : Option Alphabet} (hend : addrEnding s mode t = .raised e au) :
      exec dec s = .next { s with status := statusValue (errCode e) false au } :=
    exec_addrDec_of_raised hdec hl ht' hend
  cases hsel : selectAlphabet mode t with
  | error e =>
    exact ⟨_, ends (addrEnding_of_select_error hsel),
      fun _ => statusErr_statusValue (errCode .invalidBase64) false none, nofun⟩
  | ok B =>
    by_cases hover : ∀ d ∈ t, (charVal B d).isSome = true
    · obtain ⟨b', hb', henc⟩ := exists_b64enc (Memory.length_readBytes ht) hover
      have hdecode : b64dec B t = .ok b' := b64dec_ok_iff_b64enc.2 ⟨hb', henc⟩
      have hbne : b' ≠ b := fun h => hne B (h ▸ henc.symm)
      have hbits : agreeOutsideChar i b b' := agreeOutsideChar_of_b64enc_eq_set hb hb' henc
      obtain ⟨e, he⟩ := hbits.parse36_error hb hb' (storedSum_build36 bnc tst wc hacct) hbne
      refine ⟨_, ends (addrEnding_of_parse36_error hsel hdecode he), nofun, fun B' hB' => ?_⟩
      obtain rfl := Except.ok.inj hB'
      refine ⟨fun ⟨d, hd, hn⟩ => ?_, fun _ => ⟨?_, b', hdecode, hbne, hbits⟩⟩
      · exact absurd (hover d hd) (by simp [hn])
      · rw [statusErr_statusValue]
        rcases parse36_error he with rfl | rfl <;> decide
    · simp only [not_forall, Option.not_isSome_iff_eq_none] at hover
      obtain ⟨d, hd, hn⟩ := hover
      obtain ⟨e, he, hcases⟩ := b64dec_of_foreign_set hb hi hd hn
      refine ⟨_, ends (addrEnding_of_b64dec_error hsel he), nofun, fun B' hB' => ?_⟩
      obtain rfl := Except.ok.inj hB'
      refine ⟨fun _ => ?_, fun hover => ?_⟩
      · rw [statusErr_statusValue]
        exact hcases.imp (congrArg errCode) (And.imp_left (congrArg errCode))
      · exact absurd (hover d hd) (by simp [hn])

end Sys2Proof.Machine
end

section
/-! The errors of a command (R200 to R207): the STATUS each ending leaves, the two cases of a
ContractViolation and its record, and that the STATUS before a command decides nothing. -/

namespace Sys2Proof.Machine

/-! ## The ERR and MATCH of an ending -/

/-- The ERR value an ending carries to STATUS (R201). -/
def Ending.err : Ending → BitVec 4
  | .done _ _ _ => errOk
  | .raised e _ => errCode e

@[simp] theorem statusErr_commit (s : State) (e : Ending) :
    statusErr (commit s e).status = e.err := by
  cases e <;> simp [Ending.err]

theorem decEnding_err (s : State) (mode : AlphMode) (t : List Byte) :
    (decEnding s mode t).err ∈ [0x0#4, 0x1#4, 0x2#4] := by
  cases h : decEnding s mode t with
  | done u m au => simp [Ending.err, errOk]
  | raised e au =>
    rcases decodeText_error (decEnding_raised h) with rfl | rfl <;> simp [Ending.err, errCode]

theorem parseEnding_err (s : State) (b : List Byte) :
    (parseEnding s b).err ∈ [0x0#4, 0x3#4, 0x4#4] := by
  cases h : parseEnding s b with
  | done u m au => simp [Ending.err, errOk]
  | raised e au =>
    rcases parse36_error (parseEnding_raised h).1 with rfl | rfl <;> simp [Ending.err, errCode]

theorem addrEnding_err (s : State) (mode : AlphMode) (t : List Byte) :
    (addrEnding s mode t).err ∈ [0x0#4, 0x1#4, 0x2#4, 0x3#4, 0x4#4] := by
  cases h : addrEnding s mode t with
  | done u m au => simp [Ending.err, errOk]
  | raised e au =>
    rcases addrEnding_raised h with hd | ⟨A, b, -, hp, -⟩
    · rcases decodeText_error hd with rfl | rfl <;> simp [Ending.err, errCode]
    · rcases parse36_error hp with rfl | rfl <;> simp [Ending.err, errCode]

/-- On the bytes it reads a command comes to an ERR value of its row in R203. -/
theorem endingOf_err_mem (i : Instr) (s : State) (x : List Byte) :
    (endingOf i s x).err ∈ errsOf i := by
  have dec (mode : AlphMode) : (decEnding s mode x).err ∈ [0x0#4, 0x1#4, 0x2#4, 0xF#4] :=
    List.mem_append_left [0xF#4] (decEnding_err s mode x)
  have addrDec (mode : AlphMode) :
      (addrEnding s mode x).err ∈ [0x0#4, 0x1#4, 0x2#4, 0x3#4, 0x4#4, 0xF#4] :=
    List.mem_append_left [0xF#4] (addrEnding_err s mode x)
  cases i
  case b64DecStd | b64DecUrl | b64DecGuess => exact dec _
  case bufParse => exact parseEnding_err s x
  case addrDecStd | addrDecUrl | addrDecGuess => exact addrDec _
  all_goals exact List.mem_singleton_self _

/-- None of them is that of a ContractViolation. -/
theorem endingOf_err_ne_contract (i : Instr) (s : State) (x : List Byte) :
    (endingOf i s x).err ≠ 0xF#4 := by
  cases h : endingOf i s x with
  | done u m au => exact (by decide : errOk ≠ 0xF#4)
  | raised e au => exact mt (errCode_eq_contract e).1 (endingOf_raised_ne_contract h)

/-- The commands that check TXT_LEN have the code of a ContractViolation in their row (R203). -/
theorem contract_mem_errsOf {i : Instr} (h : decodesText i = true) :
    errCode .contractViolation ∈ errsOf i := by
  revert h
  cases i <;> decide

/-- MATCH = 1 comes from a CRC.VERIFY whose checksums agree (R104, R205). -/
theorem crcVerify_of_done_match {i : Instr} {s u : State} {x : List Byte} {au : Option Alphabet}
    (h : endingOf i s x = .done u true au) : i = .crcVerify ∧ crc16 x = s.crc := by
  have dec {mode : AlphMode} (h : decEnding s mode x = .done u true au) : False := by
    obtain ⟨_, _, _, _, hm, _⟩ := decEnding_done h
    cases hm
  have addrDec {mode : AlphMode} (h : addrEnding s mode x = .done u true au) : False := by
    obtain ⟨_, _, _, _, _, _, hm, _⟩ := addrEnding_done h
    cases hm
  cases i
  case crcVerify =>
    obtain ⟨-, hm, -⟩ := Ending.done.inj h
    exact ⟨rfl, of_decide_eq_true hm⟩
  case b64DecStd | b64DecUrl | b64DecGuess => exact (dec h).elim
  case bufParse =>
    obtain ⟨_, _, _, hm, _⟩ := parseEnding_done h
    cases hm
  case addrDecStd | addrDecUrl | addrDecGuess => exact (addrDec h).elim
  all_goals cases h

/-- The STATUS value as R205 computes it from its fields. -/
theorem statusValue_eq_or (e : BitVec 4) (m : Bool) (au : Option Alphabet) :
    statusValue e m au =
      0x80#8 ||| ((auCode au).setWidth 8 <<< 5) ||| ((BitVec.ofBool m).setWidth 8 <<< 4) |||
        e.setWidth 8 := by
  rcases au with _ | _ | _ <;> cases m <;> revert e <;> decide

/-! ## A word at CMD -/

/-- The words of the six commands that read the text (R202 (b)). -/
def textWords : List Word := [0x04#32, 0x14#32, 0x24#32, 0x08#32, 0x18#32, 0x28#32]

theorem textWords_eq_map_encode : textWords = (allInstrs.filter decodesText).map encode := by decide

theorem mem_textWords_iff {w : Word} :
    w ∈ textWords ↔ ∃ i, decodesText i = true ∧ decode w = .ok i := by
  have all (i : Instr) : i ∈ allInstrs := by cases i <;> decide
  simp [textWords_eq_map_encode, decode_ok_iff, all]

/-- The two cases of R202: an illegal word, or a text command while TXT_LEN is above 256. -/
def violatesContract (w : Word) (s : State) : Prop :=
  w ∉ commandTable.map Prod.fst ∨ (w ∈ textWords ∧ 256 < s.txtLen.toNat)

/-- STATUS 0x8F and the record, nothing else (R202). -/
theorem raiseError_contract (s : State) :
    raiseError s .contractViolation none = { s with status := 0x8F#8, violated := true } := by
  rw [raiseError_eq, decide_eq_true rfl, Bool.or_true]
  rfl

theorem runCommand_of_violatesContract {w : Word} {s : State} (h : violatesContract w s) :
    runCommand w s = .next { s with status := 0x8F#8, violated := true } := by
  rcases h with hw | ⟨hw, hlong⟩
  · exact runCommand_of_not_mem hw s
  · obtain ⟨i, hi, hd⟩ := mem_textWords_iff.1 hw
    rw [runCommand_of_decode hd, ← raiseError_contract]
    exact exec_next_iff.2 (.inl ⟨hi, hlong, rfl⟩)

/-- Everything a word written to CMD can end with: a ContractViolation in its two cases, or what its
command makes of the bytes it reads. -/
theorem runCommand_next_cases {w : Word} {s t : State} (h : runCommand w s = .next t) :
    (violatesContract w s ∧ t = raiseError s .contractViolation none) ∨
      ∃ i x, decode w = .ok i ∧ inputOf i s = some x ∧ t = commit s (endingOf i s x) := by
  cases hd : decode w with
  | error r =>
    rw [runCommand_of_illegal hd] at h
    refine .inl ⟨.inl fun hw => ?_, (Host.Outcome.next.inj h).symm⟩
    obtain ⟨i, hi⟩ := mem_commandWords_iff.1 hw
    cases hd.symm.trans (decode_ok_iff.2 hi)
  | ok i =>
    rw [runCommand_of_decode hd] at h
    rcases exec_next_iff.1 h with ⟨hi, hlong, rfl⟩ | ⟨-, x, hx, rfl⟩
    · exact .inl ⟨.inr ⟨mem_textWords_iff.2 ⟨i, hi, hd⟩, hlong⟩, rfl⟩
    · exact .inr ⟨i, x, rfl, hx, rfl⟩

/-! ## The record of a ContractViolation -/

/-- What a command makes of the bytes it reads leaves the record alone. -/
theorem violated_commit_endingOf (i : Instr) (s : State) (x : List Byte) :
    (commit s (endingOf i s x)).violated = s.violated := by
  cases h : endingOf i s x with
  | done u m au =>
    rcases endingOf_done_registers h with ⟨-, _, rfl⟩ | ⟨_, rfl⟩ | ⟨-, _, _, rfl⟩ |
      ⟨-, _, _, _, rfl⟩ <;> rfl
  | raised e au => rw [commit_raised, raiseError_of_ne_contract (endingOf_raised_ne_contract h)]

/-- No word written to CMD clears the record. -/
theorem violated_of_runCommand {w : Word} {s t : State} (hs : s.violated = true)
    (h : runCommand w s = .next t) : t.violated = true := by
  rcases runCommand_next_cases h with ⟨-, rfl⟩ | ⟨i, x, -, -, rfl⟩
  · rw [raiseError_contract]
  · rwa [violated_commit_endingOf]

/-- Settles O46: the cases of `runCommand_next_cases`, only the first of which reports 0xF. -/
theorem contractViolationCases : Obligations.ContractViolationCases := by
  refine ⟨fun w s h => runCommand_of_violatesContract h, fun w s t h hF => ?_,
    fun w s t hs h => violated_of_runCommand hs h⟩
  rcases runCommand_next_cases h with ⟨hcase, -⟩ | ⟨i, x, -, -, rfl⟩
  · exact hcase
  · rw [statusErr_commit] at hF
    exact absurd hF (endingOf_err_ne_contract i s x)

/-- Settles O47: of the events other than reset, only a word at CMD can touch the record. -/
theorem violationStaysUntilReset : Obligations.ViolationStaysUntilReset := by
  intro s t hs h hreset
  rcases step_next h with ⟨-, rfl⟩ | ⟨e, rest, hp, ⟨a, -, ⟨-, rfl⟩ | ⟨off, -, ha⟩⟩ | ⟨he, -⟩⟩
  · exact hs
  · exact hs
  · rcases accessAt_next ha with ⟨-, -, hv⟩ | ⟨bs, -, rfl⟩ | ⟨p, w, u, -, -, hu, rfl⟩
    · exact hv.trans hs
    · exact hs
    · exact (violated_of_runCommand (s := s.setPort rest) hs hu :)
  · obtain ⟨hne, hduring⟩ := hreset e rest hp
    rcases he with he | ⟨a, he⟩
    · exact absurd he hne
    · exact absurd he (hduring a)

/-! ## The STATUS after a command -/

/-- Settles O48: the check of TXT_LEN raises 0xF; the rest is what the command makes of its bytes. -/
theorem errorsByCommand : Obligations.ErrorsByCommand := by
  have illegal : statusErr 0x8F#8 = 0xF#4 := by decide
  refine ⟨fun i s t h => ?_, fun w s hw => ⟨_, runCommand_of_not_mem hw s, illegal⟩⟩
  rcases exec_next_iff.1 h with ⟨hd, -, rfl⟩ | ⟨-, x, -, rfl⟩
  · rw [raiseError_status, statusErr_statusValue]
    exact contract_mem_errsOf hd
  · rw [statusErr_commit]
    exact endingOf_err_mem i s x

/-- Settles O49: an error writes MATCH = 0, and of the endings without error one alone has MATCH = 1. -/
theorem statusAfterACommand : Obligations.StatusAfterACommand := by
  refine ⟨statusValue_eq_or, fun w s t h => ?_⟩
  have raised (e : Err) (au : Option Alphabet) : statusMatch (raiseError s e au).status = false := by
    rw [raiseError_status, statusMatch_statusValue]
  rcases runCommand_next_cases h with ⟨-, rfl⟩ | ⟨i, x, hd, hx, rfl⟩
  · exact ⟨⟨_, _, _, rfl⟩, fun hm => absurd ((raised _ _).symm.trans hm) nofun⟩
  · cases he : endingOf i s x with
    | raised e au =>
      exact ⟨⟨_, _, _, rfl⟩, fun hm => absurd ((raised e au).symm.trans hm) nofun⟩
    | done u m au =>
      refine ⟨⟨_, _, _, rfl⟩, fun hm => ?_⟩
      rw [commit_done, finish_status, statusMatch_statusValue] at hm
      subst hm
      obtain ⟨rfl, hcrc⟩ := crcVerify_of_done_match he
      exact ⟨hd, x, hx, hcrc⟩

/-- Settles O51: ERR ≠ 0 comes from a raised error alone, which commits nothing staged (R33). -/
theorem failedCommandChangesOnlyStatus : Obligations.FailedCommandChangesOnlyStatus := by
  intro w s t h herr
  rcases runCommand_next_cases h with ⟨-, rfl⟩ | ⟨i, x, -, -, rfl⟩
  · rfl
  · rw [statusErr_commit] at herr
    cases he : endingOf i s x with
    | raised e au => rfl
    | done u m au =>
      rw [he] at herr
      exact absurd rfl herr

/-! ## The STATUS before a command (R207) -/

/-- The ending with `v` for STATUS in its staged state. -/
def Ending.setStatus (v : BitVec 8) : Ending → Ending
  | .done u m au => .done (u.setStatus v) m au
  | .raised e au => .raised e au

/-- The end of a command overwrites STATUS (R205). -/
theorem commit_setStatus (s : State) (v : BitVec 8) (e : Ending) :
    commit (s.setStatus v) (e.setStatus v) = commit s e := by
  cases e <;> rfl

theorem decEnding_setStatus (s : State) (v : BitVec 8) (mode : AlphMode) (t : List Byte) :
    decEnding (s.setStatus v) mode t = (decEnding s mode t).setStatus v := by
  unfold decEnding
  cases decodeText mode t <;> rfl

theorem parseEnding_setStatus (s : State) (v : BitVec 8) (b : List Byte) :
    parseEnding (s.setStatus v) b = (parseEnding s b).setStatus v := by
  unfold parseEnding
  cases parse36 b <;> rfl

theorem addrEnding_setStatus (s : State) (v : BitVec 8) (mode : AlphMode) (t : List Byte) :
    addrEnding (s.setStatus v) mode t = (addrEnding s mode t).setStatus v := by
  unfold addrEnding
  cases decodeText mode t with
  | error p => rfl
  | ok p =>
    obtain ⟨A, b⟩ := p
    dsimp only
    cases parse36 b <;> rfl

/-- No command computes with STATUS: it passes through to the staged state. -/
theorem endingOf_setStatus (i : Instr) (s : State) (v : BitVec 8) (x : List Byte) :
    endingOf i (s.setStatus v) x = (endingOf i s x).setStatus v := by
  cases i
  case b64DecStd | b64DecUrl | b64DecGuess => exact decEnding_setStatus s v _ x
  case bufParse => exact parseEnding_setStatus s v x
  case addrDecStd | addrDecUrl | addrDecGuess => exact addrEnding_setStatus s v _ x
  all_goals rfl

theorem inputOf_setStatus (i : Instr) (s : State) (v : BitVec 8) :
    inputOf i (s.setStatus v) = inputOf i s := by
  cases i <;> rfl

theorem withBytes_setStatus (i : Instr) (s : State) (v : BitVec 8) (r : Option (List Byte)) :
    withBytes (s.setStatus v) r (endingOf i (s.setStatus v)) = withBytes s r (endingOf i s) := by
  cases r with
  | none => rfl
  | some x => rw [withBytes_some, withBytes_some, endingOf_setStatus, commit_setStatus]

theorem withText_setStatus (i : Instr) (s : State) (v : BitVec 8) :
    withText (s.setStatus v) (endingOf i (s.setStatus v)) = withText s (endingOf i s) := by
  by_cases h : 256 < s.txtLen.toNat
  · rw [withText_of_long h, withText_of_long (s := s.setStatus v) h]
    rfl
  · have short : s.textTooLong = false := Bool.eq_false_iff.2 (mt (textTooLong_iff s).1 h)
    unfold withText
    rw [show (s.setStatus v).textTooLong = s.textTooLong from rfl, short]
    exact withBytes_setStatus i s v s.textBytes

/-- Settles O55: neither frame lets the old STATUS through. -/
theorem commandsIgnoreTheOldStatus : Obligations.CommandsIgnoreTheOldStatus := by
  intro i s v
  change exec i (s.setStatus v) = exec i s
  rw [exec_eq, exec_eq, withText_setStatus, inputOf_setStatus, withBytes_setStatus]

end Sys2Proof.Machine
end

section
/-! Reset, idleness and re-issue (R216, R230 to R232, R236): the steps without an access, and that a
command issued again at once leaves the state the first issue left. -/

namespace Sys2Proof.Machine

/-! ## Steps without an access -/

/-- Settles O7. -/
theorem idleBlockHoldsItsState : Obligations.IdleBlockHoldsItsState :=
  fun _ => step_of_no_event

/-- Settles O10: both events pulse reset, which keeps the port and the answers. -/
theorem resetPulseRestoresReset : Obligations.ResetPulseRestoresReset := by
  intro s e rest hp he
  rw [step_of_event hp]
  rcases he with rfl | ⟨a, rfl⟩ <;> rfl

/-! ## Stores done twice

These hold of every list of cells, also of one that is not in the canonical form. -/

theorem Memory.write_cons_of_lt {a k : Nat} (h : a < k) (v b : Byte) (m : Memory) :
    Memory.write ((k, v) :: m) a b = (a, b) :: (k, v) :: m := by
  simp [Memory.write, h]

theorem Memory.write_cons_self (a : Nat) (v b : Byte) (m : Memory) :
    Memory.write ((a, v) :: m) a b = (a, b) :: m := by
  simp [Memory.write]

theorem Memory.write_cons_of_gt {a k : Nat} (h : k < a) (v b : Byte) (m : Memory) :
    Memory.write ((k, v) :: m) a b = (k, v) :: m.write a b := by
  simp [Memory.write, h.not_gt, h.ne']

/-- Of two stores at one offset the second decides. -/
theorem Memory.write_write_same (m : Memory) (a : Nat) (b d : Byte) :
    (m.write a b).write a d = m.write a d := by
  induction m with
  | nil => exact Memory.write_cons_self a b d []
  | cons e m ih =>
    obtain ⟨k, v⟩ := e
    rcases lt_trichotomy a k with h | rfl | h
    · simp only [Memory.write_cons_of_lt h, Memory.write_cons_self]
    · simp only [Memory.write_cons_self]
    · simp only [Memory.write_cons_of_gt h, ih]

theorem Memory.write_comm_of_lt {a c : Nat} (h : a < c) (m : Memory) (b d : Byte) :
    (m.write a b).write c d = (m.write c d).write a b := by
  induction m with
  | nil => exact (Memory.write_cons_of_gt h b d []).trans (Memory.write_cons_of_lt h d b []).symm
  | cons e m ih =>
    obtain ⟨k, v⟩ := e
    rcases lt_trichotomy a k with hak | rfl | hka
    · rw [Memory.write_cons_of_lt hak, Memory.write_cons_of_gt h]
      rcases lt_trichotomy c k with hck | rfl | hkc
      · rw [Memory.write_cons_of_lt hck, Memory.write_cons_of_lt h]
      · rw [Memory.write_cons_self, Memory.write_cons_of_lt hak]
      · rw [Memory.write_cons_of_gt hkc, Memory.write_cons_of_lt hak]
    · simp only [Memory.write_cons_self, Memory.write_cons_of_gt h]
    · simp only [Memory.write_cons_of_gt hka, Memory.write_cons_of_gt (hka.trans h), ih]

/-- Stores at two offsets commute. -/
theorem Memory.write_comm {a c : Nat} (h : a ≠ c) (m : Memory) (b d : Byte) :
    (m.write a b).write c d = (m.write c d).write a b := by
  rcases h.lt_or_gt with h | h
  · exact Memory.write_comm_of_lt h m b d
  · exact (Memory.write_comm_of_lt h m d b).symm

/-- A sequence write commutes with a store outside it. -/
theorem Memory.write_writeBytes_comm (m : Memory) {a c : Nat} (d : Byte) (bs : List Byte)
    (h : c < a ∨ a + bs.length ≤ c) :
    (m.write c d).writeBytes a bs = (m.writeBytes a bs).write c d := by
  induction bs generalizing m a with
  | nil => rfl
  | cons b bs ih =>
    rw [List.length_cons] at h
    simp only [Memory.writeBytes]
    rw [Memory.write_comm (by omega), ih _ (by omega)]

/-- Sequence writes to two ranges that do not meet commute. -/
theorem Memory.writeBytes_comm (m : Memory) {a c : Nat} (bs cs : List Byte)
    (h : a + bs.length ≤ c ∨ c + cs.length ≤ a) :
    (m.writeBytes a bs).writeBytes c cs = (m.writeBytes c cs).writeBytes a bs := by
  induction bs generalizing m a with
  | nil => rfl
  | cons b bs ih =>
    rw [List.length_cons] at h
    simp only [Memory.writeBytes]
    rw [ih _ (by omega), Memory.write_writeBytes_comm _ _ _ (by omega)]

/-- A sequence write done again changes nothing. -/
theorem Memory.writeBytes_writeBytes_same (m : Memory) (a : Nat) (bs : List Byte) :
    (m.writeBytes a bs).writeBytes a bs = m.writeBytes a bs := by
  induction bs generalizing m a with
  | nil => rfl
  | cons b bs ih =>
    simp only [Memory.writeBytes]
    rw [← Memory.write_writeBytes_comm _ _ _ (by omega), Memory.write_write_same, ih]

/-- Nor do two of them, to ranges that do not meet. -/
theorem Memory.writeBytes_writeBytes_twice (m : Memory) {a c : Nat} {bs cs : List Byte}
    (h : a + bs.length ≤ c ∨ c + cs.length ≤ a) :
    (((m.writeBytes a bs).writeBytes c cs).writeBytes a bs).writeBytes c cs =
      (m.writeBytes a bs).writeBytes c cs := by
  rw [← Memory.writeBytes_comm _ bs cs h, Memory.writeBytes_writeBytes_same,
    Memory.writeBytes_writeBytes_same]

theorem State.stageBuf_stageBuf (s : State) (b : List Byte) :
    (s.stageBuf b).stageBuf b = s.stageBuf b :=
  congrArg s.setMem (Memory.writeBytes_writeBytes_same s.mem bufBase b)

theorem State.stageText_stageText (s : State) (t : List Byte) :
    (s.stageText t).stageText t = s.stageText t :=
  congrArg (fun m => (s.setMem m).setTxtLen _) (Memory.writeBytes_writeBytes_same s.mem txtBase t)

theorem State.stageParsed_stageParsed (s : State) (p : Parsed) :
    (s.stageParsed p).stageParsed p = s.stageParsed p :=
  congrArg (fun m => ((s.setMem m).setWc p.wc).setFlags _)
    (Memory.writeBytes_writeBytes_same s.mem acctBase p.acct)

/-- BUF ends below TXT (R52). -/
theorem State.stageBuf_stageText_twice (s : State) {b : List Byte} (hb : b.length = 36)
    (t : List Byte) :
    (((s.stageBuf b).stageText t).stageBuf b).stageText t = (s.stageBuf b).stageText t :=
  congrArg (fun m => (s.setMem m).setTxtLen _)
    (Memory.writeBytes_writeBytes_twice s.mem (.inl (by rw [hb]; decide)))

/-- ACCT ends below BUF (R52). -/
theorem State.stageBuf_stageParsed_twice (s : State) (b : List Byte) {p : Parsed}
    (hp : p.acct.length = 32) :
    (((s.stageBuf b).stageParsed p).stageBuf b).stageParsed p = (s.stageBuf b).stageParsed p :=
  congrArg (fun m => ((s.setMem m).setWc p.wc).setFlags _)
    (Memory.writeBytes_writeBytes_twice s.mem (.inr (by rw [hp])))

/-! ## Re-issue (R236) -/

/-- No command writes an array byte it reads (R75). -/
theorem writesByte_of_readsByte {i : Instr} {s : State} {a : Nat} (h : readsByte i s a = true) :
    writesByte i a = false := by
  rw [← Bool.not_eq_true]
  intro hw
  cases i <;> simp [readsByte, writesByte, within_iff] at h hw <;> omega

/-- A command that succeeds leaves its read set as it was (R75). -/
theorem agreeOnReads_of_done {i : Instr} {s u : State} {x : List Byte} {m : Bool}
    {au : Option Alphabet} (hx : inputOf i s = some x) (h : endingOf i s x = .done u m au) :
    agreeOnReads i s u := by
  obtain ⟨hcrc, hparsed, hlen, -⟩ := endingOf_done_keepsRegisters h
  refine ⟨fun a ha => ?_, ?_, fun hd => ?_, fun hi => ?_⟩
  · refine ((endingOf_done_storedOver hx h).read_outside fun r hr hra => ?_).symm
    exact absurd ((writesByte_iff.2 ⟨r, hr, hra⟩).symm.trans (writesByte_of_readsByte ha)) nofun
  · rintro rfl
    exact (hcrc nofun).symm
  · have hkept : writesTxtLen i = false := by
      revert hd
      cases i <;> decide
    exact (hlen hkept).symm
  · have hkept : writesParsed i = false := by fin_cases hi <;> rfl
    exact (hparsed hkept).imp Eq.symm Eq.symm

/-- From the state it staged, a command makes the same ending of the same bytes. -/
theorem endingOf_staged {i : Instr} {s u : State} {x : List Byte} {m : Bool}
    {au : Option Alphabet} (hx : inputOf i s = some x) (h : endingOf i s x = .done u m au) :
    endingOf i u x = .done u m au := by
  have hl := length_of_inputOf hx
  have dec {mode : AlphMode} (h : decEnding s mode x = .done u m au) :
      decEnding u mode x = .done u m au := by
    obtain ⟨A, b, hd, rfl, rfl, rfl⟩ := decEnding_done h
    simp [decEnding, hd, State.stageBuf_stageBuf]
  have addrDec {mode : AlphMode} (h : addrEnding s mode x = .done u m au) :
      addrEnding u mode x = .done u m au := by
    obtain ⟨A, b, p, hd, hp, rfl, rfl, rfl⟩ := addrEnding_done h
    have ha := length_acct_of_parse36 (length_of_decodeText hd) hp
    simp [addrEnding, hd, hp, State.stageBuf_stageParsed_twice s b ha]
  have addrEnc {A : Alphabet} (ha : x.length = 32) (h : addrEncEnding s A x = .done u m au) :
      addrEncEnding u A x = .done u m au := by
    cases h
    have hb : (build36 s.bnc s.tst s.wc x).length = 36 := by rw [length_build36, ha]
    exact congrArg (Ending.done · false (some A)) (State.stageBuf_stageText_twice s hb _)
  cases i
  case crcCompute | crcVerify =>
    cases h
    rfl
  case b64EncStd | b64EncUrl =>
    cases h
    exact congrArg (Ending.done · _ _) (State.stageText_stageText s _)
  case b64DecStd | b64DecUrl | b64DecGuess => exact dec h
  case bufBuild =>
    cases h
    exact congrArg (Ending.done · _ _) (State.stageBuf_stageBuf s _)
  case bufParse =>
    obtain ⟨p, hp, rfl, rfl, rfl⟩ := parseEnding_done h
    simp [endingOf, parseEnding, hp, State.stageParsed_stageParsed]
  case addrEncStd | addrEncUrl => exact addrEnc hl h
  case addrDecStd | addrDecUrl | addrDecGuess => exact addrDec h

/-- A ContractViolation raised again changes nothing. -/
theorem raiseError_raiseError_contract (s : State) :
    raiseError (raiseError s .contractViolation none) .contractViolation none =
      raiseError s .contractViolation none := by
  simp only [raiseError_contract]

/-- Settles O54: the record of a ContractViolation stays set; any other error changed only STATUS, which
no command reads; and the staged state is its own ending's. -/
theorem reissueLeavesTheSameState : Obligations.ReissueLeavesTheSameState := by
  intro i s t h
  rcases exec_next_iff.1 h with ⟨hd, hlong, rfl⟩ | ⟨hle, x, hx, rfl⟩
  · exact exec_next_iff.2 (.inl ⟨hd, hlong, (raiseError_raiseError_contract s).symm⟩)
  · cases he : endingOf i s x with
    | raised e au =>
      rw [he, commit_raised, raiseError_of_ne_contract (endingOf_raised_ne_contract he)] at h
      rw [commit_raised, raiseError_of_ne_contract (endingOf_raised_ne_contract he),
        commandsIgnoreTheOldStatus, h]
    | done u m au =>
      have hagree := agreeOnReads_of_done hx he
      have hinput : inputOf i u = some x := hagree.inputOf_eq ▸ hx
      have hlen (hd : decodesText i = true) : u.txtLen.toNat ≤ 256 := hagree.txtLen_eq hd ▸ hle hd
      rw [commit_done, finish_eq, commandsIgnoreTheOldStatus, exec_of_input hlen hinput,
        endingOf_staged hx he, commit_done, finish_eq]

end Sys2Proof.Machine
end
